-- ==== Sys2Proof/Word.lean ====
section
/-! DEFINITION. The word type of the LS-8 core: every register, memory cell, opcode and operand is one byte
(00_scope.md R6, CELL_WIDTH and REG_WIDTH). Bit 0 is the least significant bit (R7). -/

namespace Sys2Proof

/-- One 8-bit unsigned value (00_scope.md R6, R7). -/
abbrev Byte := BitVec 8

end Sys2Proof
end

