-- ==== Sys2Proof/Config.lean ====
section
/-! DEFINITION. The implementation parameters of 00_scope.md R6. -/

namespace Sys2Proof

/-- The parameter the spec leaves OPEN with a default and that a step reads: UNDERFLOW_CHECK (43_stack.md R153,
90_conflicts.md C3). `State` carries a value of this type and no step changes it, so every statement about all
states speaks of both settings (log entry 2). The other OPEN parameter, R_INIT, is an argument of `State.initial`. -/
structure Config where
  /-- When true, POP and RET raise OutOfBounds(Stack, SP) if SP is at or above 0xF4. -/
  underflowCheck : Bool
  deriving DecidableEq, Repr

/-- MEM_SIZE: addresses 0..255 (00_scope.md R6). -/
abbrev Config.memSize : Nat := 256

/-- SP_INIT: the start value of register 7 (00_scope.md R6, 10_state.md R24). -/
def Config.spInit : Byte := 0xF4#8

/-- PC_RESET (00_scope.md R6, 10_state.md R25). -/
def Config.pcReset : Nat := 0

/-- LOAD_BASE: the address of the image's first byte (00_scope.md R6). -/
def Config.loadBase : Nat := 0

/-- The default setting of UNDERFLOW_CHECK: false (00_scope.md R6, 43_stack.md R153). -/
def Config.standard : Config := { underflowCheck := false }

end Sys2Proof
end

