-- ==== Sys2Proof/Syntax.lean ====
section
/-! DEFINITION. The instructions of the LS-8 core: one constructor per row of spec/opcode_table.json, in the
table's order. An operand is the whole byte of the encoding (30_encoding.md R64): a register operand may hold any
value 0..255, and what a value above 7 does is the handler's business (10_state.md R21). -/

namespace Sys2Proof

/-- The 21 defined instructions with their operand bytes (00_scope.md R2; 30_encoding.md R63, R65). -/
inductive Instr where
  | nop
  | hlt
  | ret
  | pra (a : Byte)
  | push (a : Byte)
  | pop (a : Byte)
  | prn (a : Byte)
  | call (a : Byte)
  | jmp (a : Byte)
  | jeq (a : Byte)
  | jne (a : Byte)
  | inc (a : Byte)
  | dec (a : Byte)
  | not (a : Byte)
  | ldi (a : Byte) (imm : Byte)
  | ld (a b : Byte)
  | add (a b : Byte)
  | mul (a b : Byte)
  | cmp (a b : Byte)
  | and (a b : Byte)
  | xor (a b : Byte)
  deriving DecidableEq, Repr

/-- The mnemonics alone, which is what an opcode byte names (30_encoding.md R65, R67). -/
inductive Mnemonic where
  | nop | hlt | ret | pra | push | pop | prn | call | jmp | jeq | jne | inc | dec | not
  | ldi | ld | add | mul | cmp | and | xor
  deriving DecidableEq, Repr

/-- All 21 mnemonics, in the order of the opcode table. -/
def Mnemonic.all : List Mnemonic :=
  [.nop, .hlt, .ret, .pra, .push, .pop, .prn, .call, .jmp, .jeq, .jne, .inc, .dec, .not,
   .ldi, .ld, .add, .mul, .cmp, .and, .xor]

/-- The mnemonic of an instruction. -/
def Instr.mnemonic : Instr → Mnemonic
  | .nop => .nop
  | .hlt => .hlt
  | .ret => .ret
  | .pra _ => .pra
  | .push _ => .push
  | .pop _ => .pop
  | .prn _ => .prn
  | .call _ => .call
  | .jmp _ => .jmp
  | .jeq _ => .jeq
  | .jne _ => .jne
  | .inc _ => .inc
  | .dec _ => .dec
  | .not _ => .not
  | .ldi _ _ => .ldi
  | .ld _ _ => .ld
  | .add _ _ => .add
  | .mul _ _ => .mul
  | .cmp _ _ => .cmp
  | .and _ _ => .and
  | .xor _ _ => .xor

/-- The operand bytes in encoding order: `a` at pc+1, `b` at pc+2 (30_encoding.md R60, R63). -/
def Instr.operands : Instr → List Byte
  | .nop => []
  | .hlt => []
  | .ret => []
  | .pra a => [a]
  | .push a => [a]
  | .pop a => [a]
  | .prn a => [a]
  | .call a => [a]
  | .jmp a => [a]
  | .jeq a => [a]
  | .jne a => [a]
  | .inc a => [a]
  | .dec a => [a]
  | .not a => [a]
  | .ldi a imm => [a, imm]
  | .ld a b => [a, b]
  | .add a b => [a, b]
  | .mul a b => [a, b]
  | .cmp a b => [a, b]
  | .and a b => [a, b]
  | .xor a b => [a, b]

/-- The register operands among the operand bytes: all of them, but for LDI's immediate (30_encoding.md R63, R64). -/
def Instr.regOperands : Instr → List Byte
  | .ldi a _ => [a]
  | .nop => []
  | .hlt => []
  | .ret => []
  | .pra a => [a]
  | .push a => [a]
  | .pop a => [a]
  | .prn a => [a]
  | .call a => [a]
  | .jmp a => [a]
  | .jeq a => [a]
  | .jne a => [a]
  | .inc a => [a]
  | .dec a => [a]
  | .not a => [a]
  | .ld a b => [a, b]
  | .add a b => [a, b]
  | .mul a b => [a, b]
  | .cmp a b => [a, b]
  | .and a b => [a, b]
  | .xor a b => [a, b]

/-- The ALU identifiers: the eight ALU instructions, and SUB and DIV, which are reserved names with no byte and no
semantics (41_alu.md R117; 00_scope.md R2). -/
inductive AluIdent where
  | add | mul | and | xor | not | inc | dec | cmp | sub | div
  deriving DecidableEq, Repr

/-- The decoder's triple (30_encoding.md R62). -/
structure Fields where
  operandCount : Nat
  isAlu : Bool
  setsPc : Bool
  deriving DecidableEq, Repr

/-- Why a list of bytes is no instruction. -/
inductive DecodeError where
  /-- There is no opcode byte. -/
  | noOpcode
  /-- An opcode byte with A = 1 that names no ALU instruction (30_encoding.md R68). -/
  | unsupportedOperation (op : Byte)
  /-- An opcode byte with A = 0 that names no instruction (30_encoding.md R69). -/
  | invalidOpcode (op : Byte)
  /-- The operand byte at offset `k` from the opcode is missing. -/
  | missingOperand (op : Byte) (k : Nat)
  deriving DecidableEq, Repr

end Sys2Proof
end

