-- ==== Sys2Proof/WellFormed.lean ====
section
/-! DEFINITION. Well-formed instructions: every register operand names a register. An ill-formed instruction still
decodes and still runs; its handler raises OutOfBounds(Reg, i) when it uses the operand (10_state.md R21). -/

namespace Sys2Proof

/-- Only 0..7 name a register (30_encoding.md R64). -/
def namesRegister (i : Byte) : Bool := decide (i.toNat < 8)

/-- Every register operand of the instruction is in 0..7 (30_encoding.md R64). LDI's immediate is never checked. -/
def Instr.wellFormed (i : Instr) : Bool := i.regOperands.all namesRegister

end Sys2Proof
end

