-- ==== Sys2Proof/Decode.lean ====
section
/-! DEFINITION. The decoder and the encoder (30_encoding.md). The decoder is total on any list of bytes and answers
an instruction with the rest of the list, or says by name why there is none. -/

namespace Sys2Proof

/-- The opcode map of 30_encoding.md R65. LDI, PRA and HLT are the source's bytes (90_conflicts.md C1). The others
are the spec's decision D1. -/
def opcodeByte : Mnemonic → Byte
  | .nop => 0x00#8
  | .hlt => 0x01#8
  | .ret => 0x11#8
  | .pra => 0x43#8
  | .push => 0x45#8
  | .pop => 0x46#8
  | .prn => 0x47#8
  | .call => 0x50#8
  | .jmp => 0x54#8
  | .jeq => 0x55#8
  | .jne => 0x56#8
  | .inc => 0x65#8
  | .dec => 0x66#8
  | .not => 0x69#8
  | .ldi => 0x82#8
  | .ld => 0x83#8
  | .add => 0xA0#8
  | .mul => 0xA2#8
  | .cmp => 0xA7#8
  | .and => 0xA8#8
  | .xor => 0xAB#8

/-- The decoder's pure function from an opcode byte to its triple, defined on every byte: operand count in bits 7..6,
ALU flag in bit 5, sets-PC flag in bit 4 (30_encoding.md R61, R62). For bits 7..6 = 3 the count is 3 (D4). -/
def decodeFields (op : Byte) : Fields where
  operandCount := (op.extractLsb 7 6).toNat
  isAlu := op.getLsbD 5
  setsPc := op.getLsbD 4

/-- The instruction identifier, bits 3..0 (30_encoding.md R61). It does not name an instruction alone (R67). -/
def opcodeIdentifier (op : Byte) : BitVec 4 := op.extractLsb 3 0

/-- The mnemonic an opcode byte names, keyed on the whole byte (30_encoding.md R67). -/
def mnemonicOf (op : Byte) : Option Mnemonic :=
  Mnemonic.all.find? fun m => opcodeByte m == op

/-- Classification of an opcode byte: defined, or undefined on the ALU path (R68), or undefined on the other path
(R69) (30_encoding.md; 40_execution_cycle.md R83, R84). -/
def classify (op : Byte) : Except DecodeError Mnemonic :=
  match mnemonicOf op with
  | some m => .ok m
  | none => if (decodeFields op).isAlu then .error (.unsupportedOperation op) else .error (.invalidOpcode op)

/-- The instruction a mnemonic makes of its operand bytes; an operand the format lacks is not looked at
(30_encoding.md R63). -/
def build (m : Mnemonic) (a b : Byte) : Instr :=
  match m with
  | .nop => .nop
  | .hlt => .hlt
  | .ret => .ret
  | .pra => .pra a
  | .push => .push a
  | .pop => .pop a
  | .prn => .prn a
  | .call => .call a
  | .jmp => .jmp a
  | .jeq => .jeq a
  | .jne => .jne a
  | .inc => .inc a
  | .dec => .dec a
  | .not => .not a
  | .ldi => .ldi a b
  | .ld => .ld a b
  | .add => .add a b
  | .mul => .mul a b
  | .cmp => .cmp a b
  | .and => .and a b
  | .xor => .xor a b

/-- The instruction at the head of a list of bytes, with the bytes after it: opcode first, then exactly as many
operand bytes as the opcode's count (30_encoding.md R60; 40_execution_cycle.md R82 to R85). -/
def decode (bytes : List Byte) : Except DecodeError (Instr × List Byte) :=
  match bytes with
  | [] => .error .noOpcode
  | op :: rest =>
    match classify op with
    | .error e => .error e
    | .ok m =>
      if (decodeFields op).operandCount = 0 then .ok (build m 0 0, rest)
      else
        match rest with
        | [] => .error (.missingOperand op 1)
        | a :: rest₁ =>
          if (decodeFields op).operandCount = 1 then .ok (build m a 0, rest₁)
          else
            match rest₁ with
            | [] => .error (.missingOperand op 2)
            | b :: rest₂ => .ok (build m a b, rest₂)

/-- The bytes of an instruction: its opcode, then its operand bytes (30_encoding.md R60, R63). -/
def encode (i : Instr) : List Byte := opcodeByte i.mnemonic :: i.operands

/-- The byte of an ALU identifier; SUB and DIV have none (41_alu.md R117). -/
def aluByte : AluIdent → Option Byte
  | .add => some (opcodeByte .add)
  | .mul => some (opcodeByte .mul)
  | .and => some (opcodeByte .and)
  | .xor => some (opcodeByte .xor)
  | .not => some (opcodeByte .not)
  | .inc => some (opcodeByte .inc)
  | .dec => some (opcodeByte .dec)
  | .cmp => some (opcodeByte .cmp)
  | .sub => none
  | .div => none

/-- The three bytes of memory that hold the `nbits`-bit word `w`: the first byte is bits 7..0, the second bits 15..8,
the third bits 23..16, and every bit from `nbits` up is 0. Three bytes is the longest instruction (R60). -/
def tableWordBytes (nbits w : Nat) : List Byte :=
  [BitVec.ofNat 8 (w % 2 ^ nbits), BitVec.ofNat 8 (w % 2 ^ nbits / 256), BitVec.ofNat 8 (w % 2 ^ nbits / 65536)]

/-- The instruction the decoder reads from a word numbered as the opcode table numbers it. -/
def decodeTableWord (nbits w : Nat) : Option Instr :=
  match decode (tableWordBytes nbits w) with
  | .ok (i, _) => some i
  | .error _ => none

end Sys2Proof
end

