-- ==== Sys2Proof/Machine/State.lean ====
section
/-! DEFINITION. The state of the LS-8 core (10_state.md), its conditions (60_exceptions.md R200), and the state after
reset (70_reset_and_hazards.md R230). -/

namespace Sys2Proof.Machine

/-- What an OutOfBounds condition is about (60_exceptions.md R200, D20). `stack` occurs only when UNDERFLOW_CHECK is
true (43_stack.md R153). -/
inductive Target where
  | mem
  | reg
  | stack
  deriving DecidableEq, Repr

/-- What MalformedProgram carries: the offending input line, or the count of bytes of an image that is too long
(60_exceptions.md R200). Lines are counted from 1, as the test vector LD5 counts them (log entry 6). -/
inductive LoadError where
  | badLine (number : Nat) (text : List Char)
  | tooLong (bytes : Nat)
  deriving DecidableEq, Repr

/-- The four kinds of condition with the info each carries (60_exceptions.md R200). -/
inductive Condition where
  /-- Raised by the loader alone, before any step (R202). -/
  | malformedProgram (e : LoadError)
  /-- An address outside 0..255, a register index outside 0..7, or, when the check is on, a pop of an empty stack. -/
  | outOfBounds (target : Target) (value : Nat)
  /-- An undefined opcode byte with A = 1, with its address. -/
  | unsupportedOperation (op : Byte) (pc : Nat)
  /-- An undefined opcode byte with A = 0, with its address. -/
  | invalidOpcode (op : Byte) (pc : Nat)
  deriving DecidableEq, Repr

/-- The run status (10_state.md R32). Halted and Faulted are terminal (40_execution_cycle.md R80). -/
inductive Status where
  | running
  | halted
  | faulted (c : Condition)
  deriving DecidableEq, Repr

/-- Memory as the cells that differ from the reset contents, addresses strictly rising (10_state.md R29). -/
abbrev Memory := List Host.Cell

/-- Every piece of state the spec gives the core (10_state.md R20 to R33), and the configuration it runs under. -/
structure State where
  /-- x[0..7]; register 7 is the stack pointer (R20, R23). -/
  regs : Vector Byte 8
  /-- The program counter, an integer that is not reduced modulo 256 (R25). -/
  pc : Nat
  /-- The flags byte: E bit 0, G bit 1, L bit 2 (R26). -/
  fl : Byte
  /-- M[0..255] (R29). -/
  mem : Memory
  /-- The output buffer PRA appends to (R30). -/
  out : List Byte
  /-- The diagnostic channel PRN appends to (R31). -/
  diag : List Byte
  /-- The run status (R32). -/
  status : Status
  /-- The MODEL's own field: the setting of UNDERFLOW_CHECK (43_stack.md R153; log entry 2). -/
  config : Config
  deriving DecidableEq, Repr

/-- Why the machine makes no step. -/
inductive Fault where
  /-- `step` raises it when the status is Halted: no step is defined there (40_execution_cycle.md R80). Safe: the
  hardware makes no step either. -/
  | halted
  /-- `step` raises it when the status is Faulted(c): no step is defined there (40_execution_cycle.md R80). Safe: the
  hardware makes no step either. -/
  | conditionRaised (c : Condition)
  deriving DecidableEq, Repr

/-- Why an instruction has no meaning. -/
inductive Refusal where
  /-- An arm of `exec` whose instruction is not modelled would raise it. No arm does. Safe. -/
  | notModelled (mnemonic : String)
  deriving DecidableEq, Repr

/-- The fresh machine of 70_reset_and_hazards.md R230 before its image is loaded, for any choice of the OPEN
parameter R_INIT (the values of x[0..6]) and any configuration. -/
def State.initial (config : Config) (rInit : Vector Byte 7) : State where
  regs := rInit.push Config.spInit
  pc := Config.pcReset
  fl := 0x00#8
  mem := []
  out := []
  diag := []
  status := .running
  config := config

/-- The machine right after reset: R_INIT all zeros (log entry 1, DESIGN CHOICE) and UNDERFLOW_CHECK at its default
(log entry 2). -/
def State.reset : State := State.initial Config.standard (Vector.replicate 7 0x00#8)

end Sys2Proof.Machine
end

