-- ==== Sys2Proof/Machine/Ops.lean ====
section
/-! DEFINITION. The named operations over memory, registers, the program counter and the status: every read and every
write of the core goes through one of them (00_scope.md R9). -/

namespace Sys2Proof.Machine

/-! ### Memory as data -/

/-- What a cell holds that nothing has written: memory is zero-initialized (10_state.md R29). -/
def unwritten : Byte := 0x00#8

/-- The byte at an address. -/
def readCell (m : Memory) (a : Nat) : Byte :=
  match m with
  | [] => unwritten
  | c :: rest => if c.1 = a then c.2 else readCell rest a

/-- Take every entry of an address out. -/
def eraseCell (m : Memory) (a : Nat) : Memory := m.filter fun c => c.1 != a

/-- Put an entry in at its place in the rising order. -/
def insertCell (m : Memory) (a : Nat) (v : Byte) : Memory :=
  match m with
  | [] => [(a, v)]
  | c :: rest => if a < c.1 then (a, v) :: c :: rest else c :: insertCell rest a v

/-- Store a byte: the entry is replaced, and no entry is kept for the value an unwritten cell holds. -/
def writeCell (m : Memory) (a : Nat) (v : Byte) : Memory :=
  if v = unwritten then eraseCell m a else insertCell (eraseCell m a) a v

/-- The canonical form from an address up: addresses rise strictly, lie in 0..255, and no entry holds the value of an
unwritten cell. -/
def wfFrom (lo : Nat) (m : Memory) : Bool :=
  match m with
  | [] => true
  | c :: rest => decide (lo ≤ c.1) && decide (c.1 < Config.memSize) && decide (c.2 ≠ unwritten) && wfFrom (c.1 + 1) rest

/-- The canonical form of memory. -/
def Memory.wf (m : Memory) : Bool := wfFrom 0 m

/-! ### Memory accesses -/

/-- `MemRead(a, 1)`: an address above 255 raises OutOfBounds(Mem, a) (20_memory.md R41). -/
def memRead (a : Nat) (s : State) : Except Condition Byte :=
  if a < Config.memSize then .ok (readCell s.mem a) else .error (.outOfBounds .mem a)

/-- `MemWrite(a, 1, v)`: an address above 255 raises OutOfBounds(Mem, a) and changes no cell (20_memory.md R41). -/
def memWrite (a : Nat) (v : Byte) (s : State) : Except Condition State :=
  if a < Config.memSize then .ok { s with mem := writeCell s.mem a v } else .error (.outOfBounds .mem a)

/-! ### Registers -/

/-- A register write stores its value modulo 256, for any integer, negative ones included (10_state.md R22, D2). -/
def truncate (v : Int) : Byte := BitVec.ofInt 8 v

/-- Read of a register whose index has been checked (10_state.md R20). -/
def readReg (r : Fin 8) (s : State) : Byte := s.regs[r]

/-- Write of a register whose index has been checked: `x[r] <- v` stores `v mod 256` (10_state.md R22). -/
def writeReg (r : Fin 8) (v : Int) (s : State) : State := { s with regs := s.regs.set r (truncate v) }

/-- SP_INDEX: register 7 is the stack pointer (00_scope.md R6; 10_state.md R23). -/
def spIndex : Fin 8 := 7

/-- `SP`, another name for `x[7]` (10_state.md R23). -/
def sp (s : State) : Byte := readReg spIndex s

/-- `SP <- v`, an ordinary register write that wraps modulo 256 (43_stack.md R150). -/
def setSp (v : Int) (s : State) : State := writeReg spIndex v s

/-! ### Program counter, status, outputs -/

/-- `pc <- t` (00_scope.md R9). -/
def setPc (t : Nat) (s : State) : State := { s with pc := t }

/-- Raising a condition: the status becomes Faulted(c) and nothing else changes (60_exceptions.md R203;
40_execution_cycle.md R90, D22). No handler, no vector, nothing saved. -/
def raise (c : Condition) (s : State) : State := { s with status := .faulted c }

/-- `status <- Halted` (45_system.md R191). There is no return from either terminal status (60_exceptions.md R204). -/
def halt (s : State) : State := { s with status := .halted }

/-- `append(out, v)` (42_load_and_output.md R133). -/
def appendOut (v : Byte) (s : State) : State := { s with out := s.out ++ [v] }

/-- `append(diag, v)` (42_load_and_output.md R132). -/
def appendDiag (v : Byte) (s : State) : State := { s with diag := s.diag ++ [v] }

end Sys2Proof.Machine
end

