-- ==== Sys2Proof/Machine/Operands.lean ====
section
/-! DEFINITION. The operand forms: a register operand (30_encoding.md R64), the top of the stack as an implicit
operand (43_stack.md R150), and a register as an absolute branch target (44_control_transfer.md R170). -/

namespace Sys2Proof.Machine

/-- `check i in 0..7`: an operand byte above 7 used as a register index raises OutOfBounds(Reg, i)
(10_state.md R21; 00_scope.md R9). -/
def checkReg (i : Byte) : Except Condition (Fin 8) :=
  if h : i.toNat < 8 then .ok ⟨i.toNat, h⟩ else .error (.outOfBounds .reg i.toNat)

/-- The register file's `get(index) -> value` (10_state.md R20, R21). -/
def getReg (i : Byte) (s : State) : Except Condition Byte := do
  let r ← checkReg i
  return readReg r s

/-- The register file's `set(index, value)` (10_state.md R20, R21, R22). -/
def setReg (i : Byte) (v : Int) (s : State) : Except Condition State := do
  let r ← checkReg i
  return writeReg r v s

/-- The underflow check POP and RET make before any write when UNDERFLOW_CHECK is true: SP at or above SP_INIT raises
OutOfBounds(Stack, SP) (43_stack.md R153). -/
def checkUnderflow (s : State) : Except Condition Unit :=
  if s.config.underflowCheck = true ∧ Config.spInit.toNat ≤ (sp s).toNat then
    .error (.outOfBounds .stack (sp s).toNat)
  else .ok ()

/-- SP moved down by one, as a push does before its write (43_stack.md R150). -/
def decSp (s : State) : State := setSp ((sp s).toNat - 1) s

/-- SP moved up by one, as a pop does after its read (43_stack.md R150). -/
def incSp (s : State) : State := setSp ((sp s).toNat + 1) s

/-- The byte SP points at: the read of a pop (43_stack.md R150). -/
def readTop (s : State) : Except Condition Byte := memRead (sp s).toNat s

/-- The write of a push, at the SP that the decrement left (43_stack.md R150). -/
def writeTop (v : Byte) (s : State) : Except Condition State := memWrite (sp s).toNat v s

/-- `pc <- x[r]`: every branch target is the value of a register (44_control_transfer.md R170). -/
def jumpTo (r : Fin 8) (s : State) : State := setPc (readReg r s).toNat s

end Sys2Proof.Machine
end

