-- ==== Sys2Proof/Machine/Cycle.lean ====
section
/-! DEFINITION. The parts of the cycle around a handler (40_execution_cycle.md R81 to R89): fetching the instruction
at the program counter, and the end of the step. -/

namespace Sys2Proof.Machine

/-- The fields of a mnemonic's opcode byte, as the decoder reads them (40_execution_cycle.md R82). -/
def fieldsOf (m : Mnemonic) : Fields := decodeFields (opcodeByte m)

/-- Operand byte number `k` of an instruction with `n` operands: read at pc + k if the instruction has it, else not
read at all (40_execution_cycle.md R85). -/
def fetchOperand (n k : Nat) (s : State) : Except Condition Byte :=
  if k ≤ n then memRead (s.pc + k) s else .ok 0x00#8

/-- What a decoding error is as a condition of the step at `pc` (40_execution_cycle.md R81, R83, R84, R85). -/
def conditionOf (pc : Nat) : DecodeError → Condition
  | .noOpcode => .outOfBounds .mem pc
  | .unsupportedOperation op => .unsupportedOperation op pc
  | .invalidOpcode op => .invalidOpcode op pc
  | .missingOperand _ k => .outOfBounds .mem (pc + k)

/-- Classification of the opcode byte fetched at pc (40_execution_cycle.md R83, R84). -/
def classifyAt (op : Byte) (s : State) : Except Condition Mnemonic :=
  match classify op with
  | .ok m => .ok m
  | .error e => .error (conditionOf s.pc e)

/-- The fetch, decode, classify and operand fetch of a step, in the order of 40_execution_cycle.md R89. -/
def fetch (s : State) : Except Condition Instr := do
  let op ← memRead s.pc s
  let m ← classifyAt op s
  let a ← fetchOperand (decodeFields op).operandCount 1 s
  let b ← fetchOperand (decodeFields op).operandCount 2 s
  return build m a b

/-- The post-cycle auto-advance: if the opcode's sets-PC flag is 0 and the status is Running, pc moves on by the
operand count plus 1 (40_execution_cycle.md R87). -/
def autoAdvance (m : Mnemonic) (s : State) : State :=
  if (fieldsOf m).setsPc = false ∧ s.status = .running then setPc (s.pc + (fieldsOf m).operandCount + 1) s else s

/-- The advance a conditional jump makes itself when not taken (40_execution_cycle.md R88). -/
def fallThrough (m : Mnemonic) (s : State) : State := setPc (s.pc + (fieldsOf m).operandCount + 1) s

/-- The end of a step whose handler ran from `s`: either it completed and the auto-advance follows, or it raised a
condition and the state is `s` but for the status (40_execution_cycle.md R87, R90). -/
def endCycle (m : Mnemonic) (s : State) (handler : Except Condition State) : Host.Outcome State Fault Refusal :=
  match handler with
  | .ok t => .next (autoAdvance m t)
  | .error c => .next (raise c s)

/-- Store bytes at consecutive addresses from `a` up, leaving out those above 255. -/
def storeBytes (a : Nat) (bytes : List Byte) (m : Memory) : Memory :=
  match bytes with
  | [] => m
  | v :: rest => storeBytes (a + 1) rest (if a < Config.memSize then writeCell m a v else m)

end Sys2Proof.Machine
end

