-- ==== Sys2Proof/Machine/Flags.lean ====
section
/-! DEFINITION. The flags byte FL (10_state.md R26): its three bits and the one computation that writes it. -/

namespace Sys2Proof.Machine

/-- FL.E, bit 0 (10_state.md R26). -/
def flagE (fl : Byte) : Bool := fl.getLsbD 0

/-- FL.G, bit 1 (10_state.md R26). No instruction reads it. -/
def flagG (fl : Byte) : Bool := fl.getLsbD 1

/-- FL.L, bit 2 (10_state.md R26). No instruction reads it. -/
def flagL (fl : Byte) : Bool := fl.getLsbD 2

/-- The flags of an unsigned comparison: exactly one of E, L, G, and bits 7..3 clear (41_alu.md R108, D11). -/
def compareFlags (x y : Byte) : Byte :=
  if x.toNat = y.toNat then 0x01#8
  else if x.toNat < y.toNat then 0x04#8
  else 0x02#8

/-- The whole of FL is written (41_alu.md R108). -/
def setFlags (fl : Byte) (s : State) : State := { s with fl := fl }

end Sys2Proof.Machine
end

