-- ==== Sys2Proof/Machine/Alu.lean ====
section
/-! DEFINITION. The ALU instructions (41_alu.md): ADD, MUL, AND, XOR, NOT, INC, DEC, CMP, and the hand-off by
identifier under which SUB and DIV are reserved. -/

namespace Sys2Proof.Machine

/-- A two-operand ALU instruction that writes x[a]: check a, check b, then `x[a] <- f x[a] x[b]` (41_alu.md R100). -/
def aluBinary (f : Byte → Byte → Int) (a b : Byte) (s : State) : Except Condition State := do
  let ra ← checkReg a
  let rb ← checkReg b
  return writeReg ra (f (readReg ra s) (readReg rb s)) s

/-- A one-operand ALU instruction: check a, then `x[a] <- f x[a]` (41_alu.md R100). -/
def aluUnary (f : Byte → Int) (a : Byte) (s : State) : Except Condition State := do
  let ra ← checkReg a
  return writeReg ra (f (readReg ra s)) s

/-- CMP's handler: check a, check b, then write FL; no register is written (41_alu.md R108). -/
def aluCompare (a b : Byte) (s : State) : Except Condition State := do
  let ra ← checkReg a
  let rb ← checkReg b
  return setFlags (compareFlags (readReg ra s) (readReg rb s)) s

/-- ADD: `x[a] <- (x[a] + x[b]) mod 256` (41_alu.md R101). -/
def execAdd (a b : Byte) (s : State) : Host.Outcome State Fault Refusal :=
  endCycle .add s (aluBinary (fun x y => (x.toNat : Int) + y.toNat) a b s)

/-- MUL: `x[a] <- (x[a] * x[b]) mod 256` (41_alu.md R102). -/
def execMul (a b : Byte) (s : State) : Host.Outcome State Fault Refusal :=
  endCycle .mul s (aluBinary (fun x y => (x.toNat : Int) * y.toNat) a b s)

/-- AND: `x[a] <- x[a] & x[b]` (41_alu.md R103). -/
def execAnd (a b : Byte) (s : State) : Host.Outcome State Fault Refusal :=
  endCycle .and s (aluBinary (fun x y => ((x &&& y).toNat : Int)) a b s)

/-- XOR: `x[a] <- x[a] ^ x[b]` (41_alu.md R104). -/
def execXor (a b : Byte) (s : State) : Host.Outcome State Fault Refusal :=
  endCycle .xor s (aluBinary (fun x y => ((x ^^^ y).toNat : Int)) a b s)

/-- NOT: `x[a] <- 255 - x[a]` (41_alu.md R105). -/
def execNot (a : Byte) (s : State) : Host.Outcome State Fault Refusal :=
  endCycle .not s (aluUnary (fun x => 255 - (x.toNat : Int)) a s)

/-- INC: `x[a] <- (x[a] + 1) mod 256` (41_alu.md R106). -/
def execInc (a : Byte) (s : State) : Host.Outcome State Fault Refusal :=
  endCycle .inc s (aluUnary (fun x => (x.toNat : Int) + 1) a s)

/-- DEC: `x[a] <- (x[a] - 1) mod 256` (41_alu.md R107). -/
def execDec (a : Byte) (s : State) : Host.Outcome State Fault Refusal :=
  endCycle .dec s (aluUnary (fun x => (x.toNat : Int) - 1) a s)

/-- CMP: FL takes the outcome of the unsigned comparison of x[a] with x[b] (41_alu.md R108). -/
def execCmp (a b : Byte) (s : State) : Host.Outcome State Fault Refusal :=
  endCycle .cmp s (aluCompare a b s)

/-- The hand-off to the ALU by identifier (40_execution_cycle.md R86), for an opcode byte `op` fetched at pc. The arms
of SUB and DIV, which have no byte and no semantics, raise UnsupportedOperation (41_alu.md R117). A 1-operand
identifier does not look at `b` (R100). -/
def aluDispatch (id : AluIdent) (op a b : Byte) (s : State) : Host.Outcome State Fault Refusal :=
  match id with
  | .add => execAdd a b s
  | .mul => execMul a b s
  | .and => execAnd a b s
  | .xor => execXor a b s
  | .not => execNot a s
  | .inc => execInc a s
  | .dec => execDec a s
  | .cmp => execCmp a b s
  | .sub => .next (raise (.unsupportedOperation op s.pc) s)
  | .div => .next (raise (.unsupportedOperation op s.pc) s)

end Sys2Proof.Machine
end

