-- ==== Sys2Proof/Machine/Control.lean ====
section
/-! DEFINITION. The control-transfer instructions (44_control_transfer.md): CALL, RET, JMP, JEQ, JNE. Each has its
sets-PC flag set, so the step makes no auto-advance and the handler sets pc on every path that does not raise. -/

namespace Sys2Proof.Machine

/-- CALL's return address, the address after its operand byte; one above 255 does not fit a cell and raises
OutOfBounds(Mem, ret) before any write (44_control_transfer.md R171, D8). -/
def returnAddress (s : State) : Except Condition Byte :=
  if s.pc + 2 < Config.memSize then .ok (BitVec.ofNat 8 (s.pc + 2)) else .error (.outOfBounds .mem (s.pc + 2))

/-- CALL's handler: check a; the return address; SP down by one; `M[SP] <- ret`; `pc <- x[a]`, with x[a] read after
the push (44_control_transfer.md R171). -/
def callReg (a : Byte) (s : State) : Except Condition State := do
  let ra ← checkReg a
  let ret ← returnAddress s
  let s₁ ← writeTop ret (decSp s)
  return jumpTo ra s₁

/-- RET's handler: the underflow check; `pc <- M[SP]`; SP up by one (44_control_transfer.md R172). -/
def returnToTop (s : State) : Except Condition State := do
  checkUnderflow s
  let v ← readTop s
  return incSp (setPc v.toNat s)

/-- JMP's handler: check a, then `pc <- x[a]` (44_control_transfer.md R173). -/
def jumpReg (a : Byte) (s : State) : Except Condition State := do
  let ra ← checkReg a
  return jumpTo ra s

/-- A conditional jump's handler: when taken, check a and `pc <- x[a]`; when not, the handler's own advance, and no
register is read (44_control_transfer.md R174, R175; 40_execution_cycle.md R88; D23). -/
def jumpIf (m : Mnemonic) (taken : Bool) (a : Byte) (s : State) : Except Condition State :=
  if taken then jumpReg a s else .ok (fallThrough m s)

/-- CALL: call subroutine (44_control_transfer.md R171). -/
def execCall (a : Byte) (s : State) : Host.Outcome State Fault Refusal :=
  endCycle .call s (callReg a s)

/-- RET: return from subroutine (44_control_transfer.md R172). -/
def execRet (s : State) : Host.Outcome State Fault Refusal :=
  endCycle .ret s (returnToTop s)

/-- JMP: unconditional jump (44_control_transfer.md R173). -/
def execJmp (a : Byte) (s : State) : Host.Outcome State Fault Refusal :=
  endCycle .jmp s (jumpReg a s)

/-- JEQ: jump if FL.E is set (44_control_transfer.md R174). -/
def execJeq (a : Byte) (s : State) : Host.Outcome State Fault Refusal :=
  endCycle .jeq s (jumpIf .jeq (flagE s.fl) a s)

/-- JNE: jump if FL.E is clear (44_control_transfer.md R175). -/
def execJne (a : Byte) (s : State) : Host.Outcome State Fault Refusal :=
  endCycle .jne s (jumpIf .jne (!flagE s.fl) a s)

end Sys2Proof.Machine
end

