-- ==== Sys2Proof/Machine/LoadOutput.lean ====
section
/-! DEFINITION. The load and output instructions (42_load_and_output.md): LDI, LD, PRN, PRA. -/

namespace Sys2Proof.Machine

/-- LDI's handler: check a, then `x[a] <- b`, the immediate as it stands (42_load_and_output.md R130). -/
def loadImmediate (a imm : Byte) (s : State) : Except Condition State := do
  let ra ← checkReg a
  return writeReg ra imm.toNat s

/-- LD's handler: check a, check b, then `x[a] <- M[x[b]]` (42_load_and_output.md R131). -/
def loadIndirect (a b : Byte) (s : State) : Except Condition State := do
  let ra ← checkReg a
  let rb ← checkReg b
  let v ← memRead (readReg rb s).toNat s
  return writeReg ra v.toNat s

/-- PRN's handler: check a, then `append(diag, x[a])` (42_load_and_output.md R132). -/
def printNumber (a : Byte) (s : State) : Except Condition State := do
  let ra ← checkReg a
  return appendDiag (readReg ra s) s

/-- PRA's handler: check a, then `append(out, x[a])` (42_load_and_output.md R133). -/
def printChar (a : Byte) (s : State) : Except Condition State := do
  let ra ← checkReg a
  return appendOut (readReg ra s) s

/-- LDI: load immediate (42_load_and_output.md R130). -/
def execLdi (a imm : Byte) (s : State) : Host.Outcome State Fault Refusal :=
  endCycle .ldi s (loadImmediate a imm s)

/-- LD: load from memory, register-indirect (42_load_and_output.md R131). -/
def execLd (a b : Byte) (s : State) : Host.Outcome State Fault Refusal :=
  endCycle .ld s (loadIndirect a b s)

/-- PRN: print number to the diagnostic channel (42_load_and_output.md R132). -/
def execPrn (a : Byte) (s : State) : Host.Outcome State Fault Refusal :=
  endCycle .prn s (printNumber a s)

/-- PRA: print character to the output buffer (42_load_and_output.md R133). -/
def execPra (a : Byte) (s : State) : Host.Outcome State Fault Refusal :=
  endCycle .pra s (printChar a s)

end Sys2Proof.Machine
end

