-- ==== Sys2Proof/Machine/Stack.lean ====
section
/-! DEFINITION. The stack instructions (43_stack.md): PUSH, POP. The lines of each handler stand in the rule's order,
which decides what PUSH R7 and POP R7 do (00_scope.md R10, D13). -/

namespace Sys2Proof.Machine

/-- PUSH's handler: check a; SP down by one; `M[SP] <- x[a]`, with x[a] read after the decrement (43_stack.md R151). -/
def pushReg (a : Byte) (s : State) : Except Condition State := do
  let ra ← checkReg a
  let s₁ := decSp s
  writeTop (readReg ra s₁) s₁

/-- POP's handler: check a; the underflow check; `v <- M[SP]`; `x[a] <- v`; SP up by one from what it then holds
(43_stack.md R152). -/
def popReg (a : Byte) (s : State) : Except Condition State := do
  let ra ← checkReg a
  checkUnderflow s
  let v ← readTop s
  return incSp (writeReg ra v.toNat s)

/-- PUSH: push register (43_stack.md R151). -/
def execPush (a : Byte) (s : State) : Host.Outcome State Fault Refusal :=
  endCycle .push s (pushReg a s)

/-- POP: pop into register (43_stack.md R152). -/
def execPop (a : Byte) (s : State) : Host.Outcome State Fault Refusal :=
  endCycle .pop s (popReg a s)

end Sys2Proof.Machine
end

