-- ==== Sys2Proof/Machine/System.lean ====
section
/-! DEFINITION. The system instructions (45_system.md): NOP, HLT. -/

namespace Sys2Proof.Machine

/-- NOP: the handler does nothing; the step advances pc by 1 (45_system.md R190). -/
def execNop (s : State) : Host.Outcome State Fault Refusal :=
  endCycle .nop s (.ok s)

/-- HLT: `status <- Halted`; the step makes no auto-advance, since the status is no longer Running
(45_system.md R191, D16). -/
def execHlt (s : State) : Host.Outcome State Fault Refusal :=
  endCycle .hlt s (.ok (halt s))

end Sys2Proof.Machine
end

