-- ==== Sys2Proof/Machine/Step.lean ====
section
/-! DEFINITION. One step of the machine (40_execution_cycle.md R80, R89), and the placing of one instruction where the
next step fetches. -/

namespace Sys2Proof.Machine

/-- One step: defined only in the status Running; a condition of the fetch is raised, a fetched instruction is
executed (40_execution_cycle.md R80, R89). -/
def step (s : State) : Host.Outcome State Fault Refusal :=
  match s.status with
  | .halted => .fault .halted
  | .faulted c => .fault (.conditionRaised c)
  | .running =>
    match fetch s with
    | .ok i => exec i s
    | .error c => .next (raise c s)

/-- The state with the three bytes of a word of the opcode table stored at pc, pc + 1 and pc + 2, and with the status
Running, which a step needs (log entry 9). -/
def State.withFetchWord (s : State) (nbits w : Nat) : State :=
  { s with mem := storeBytes s.pc (tableWordBytes nbits w) s.mem, status := .running }

end Sys2Proof.Machine
end

