-- ==== Sys2Proof/Machine/Listing.lean ====
section
/-! DEFINITION. How the spec writes instructions and programs down: the assembler line of an instruction
(30_encoding.md R71) and the loader's text of a byte and of a program (70_reset_and_hazards.md R232). Nothing a step
does depends on it. -/

namespace Sys2Proof.Machine

/-- The mnemonic as the opcode table spells it (30_encoding.md R65). -/
def mnemonicText : Mnemonic → List Char
  | .nop => ['N', 'O', 'P']
  | .hlt => ['H', 'L', 'T']
  | .ret => ['R', 'E', 'T']
  | .pra => ['P', 'R', 'A']
  | .push => ['P', 'U', 'S', 'H']
  | .pop => ['P', 'O', 'P']
  | .prn => ['P', 'R', 'N']
  | .call => ['C', 'A', 'L', 'L']
  | .jmp => ['J', 'M', 'P']
  | .jeq => ['J', 'E', 'Q']
  | .jne => ['J', 'N', 'E']
  | .inc => ['I', 'N', 'C']
  | .dec => ['D', 'E', 'C']
  | .not => ['N', 'O', 'T']
  | .ldi => ['L', 'D', 'I']
  | .ld => ['L', 'D']
  | .add => ['A', 'D', 'D']
  | .mul => ['M', 'U', 'L']
  | .cmp => ['C', 'M', 'P']
  | .and => ['A', 'N', 'D']
  | .xor => ['X', 'O', 'R']

/-- The decimal digit of a number below 10. -/
def digit (n : Nat) : Char := Char.ofNat (48 + n)

/-- A register operand is written R0 to R7 (30_encoding.md R71). Any other index has no assembler form. -/
def registerText (i : Byte) : Option (List Char) :=
  if i.toNat < 8 then some ['R', digit i.toNat] else none

/-- LDI's immediate as a decimal number (30_encoding.md R71). -/
def decimalText (v : Byte) : List Char :=
  if v.toNat < 10 then [digit v.toNat]
  else if v.toNat < 100 then [digit (v.toNat / 10), digit (v.toNat % 10)]
  else [digit (v.toNat / 100), digit (v.toNat / 10 % 10), digit (v.toNat % 10)]

/-- The mnemonic and one operand. -/
def lineOne (m : Mnemonic) (x : Option (List Char)) : Option (List Char) :=
  x.map fun x => mnemonicText m ++ [' '] ++ x

/-- The mnemonic and two operands, separated by a comma and a space. -/
def lineTwo (m : Mnemonic) (x y : Option (List Char)) : Option (List Char) :=
  x.bind fun x => y.map fun y => mnemonicText m ++ [' '] ++ x ++ [',', ' '] ++ y

/-- The assembler line of an instruction; none where a register operand names no register (30_encoding.md R71). -/
def assemblerLine : Instr → Option (List Char)
  | .nop => some (mnemonicText .nop)
  | .hlt => some (mnemonicText .hlt)
  | .ret => some (mnemonicText .ret)
  | .pra a => lineOne .pra (registerText a)
  | .push a => lineOne .push (registerText a)
  | .pop a => lineOne .pop (registerText a)
  | .prn a => lineOne .prn (registerText a)
  | .call a => lineOne .call (registerText a)
  | .jmp a => lineOne .jmp (registerText a)
  | .jeq a => lineOne .jeq (registerText a)
  | .jne a => lineOne .jne (registerText a)
  | .inc a => lineOne .inc (registerText a)
  | .dec a => lineOne .dec (registerText a)
  | .not a => lineOne .not (registerText a)
  | .ldi a imm => lineTwo .ldi (registerText a) (some (decimalText imm))
  | .ld a b => lineTwo .ld (registerText a) (registerText b)
  | .add a b => lineTwo .add (registerText a) (registerText b)
  | .mul a b => lineTwo .mul (registerText a) (registerText b)
  | .cmp a b => lineTwo .cmp (registerText a) (registerText b)
  | .and a b => lineTwo .and (registerText a) (registerText b)
  | .xor a b => lineTwo .xor (registerText a) (registerText b)

/-- One binary digit of a byte. -/
def bitText (v : Byte) (k : Nat) : Char := if v.getLsbD k then '1' else '0'

/-- A byte as eight binary digits, the most significant first: one line of the loader's format
(70_reset_and_hazards.md R232). -/
def byteLine (v : Byte) : List Char :=
  [bitText v 7, bitText v 6, bitText v 5, bitText v 4, bitText v 3, bitText v 2, bitText v 1, bitText v 0]

/-- A program text with one byte a line, each line ended by a line feed (70_reset_and_hazards.md R232). -/
def programText (image : List Byte) : List Char :=
  match image with
  | [] => []
  | v :: rest => byteLine v ++ '\n' :: programText rest

/-- The loader's text of a list of instructions: each maps to its opcode byte followed by its operand bytes, one line
a byte (30_encoding.md R71). -/
def listingText (program : List Instr) : List Char := programText (program.flatMap encode)

end Sys2Proof.Machine
end

