-- ==== Sys2Proof/Machine/Loader.lean ====
section
/-! DEFINITION. The loader, the core's boot interface (70_reset_and_hazards.md R231 to R236): the program text, a
list of characters, becomes an image, and the image becomes the memory of a fresh machine. -/

namespace Sys2Proof.Machine

/-- Lines are separated by line-feed characters (70_reset_and_hazards.md R232). -/
def splitLines (text : List Char) : List (List Char) :=
  match text with
  | [] => [[]]
  | c :: rest =>
    if c = '\n' then [] :: splitLines rest
    else
      match splitLines rest with
      | [] => [[c]]
      | line :: lines => (c :: line) :: lines

/-- Space, tab, carriage return, line feed, vertical tab and form feed (70_reset_and_hazards.md R232, D17). -/
def isWhitespace (c : Char) : Bool :=
  c = ' ' || c = '\t' || c = '\r' || c = '\n' || c = '\x0b' || c = '\x0c'

/-- The suffix from the first `#` on is removed (70_reset_and_hazards.md R232). -/
def stripComment (line : List Char) : List Char := line.takeWhile (· ≠ '#')

/-- Surrounding whitespace is removed (70_reset_and_hazards.md R232). -/
def trim (line : List Char) : List Char :=
  ((line.dropWhile isWhitespace).reverse.dropWhile isWhitespace).reverse

/-- The value of a text of binary digits, most significant first. -/
def binaryValue (digits : List Char) : Nat :=
  digits.foldl (fun v d => 2 * v + (if d = '1' then 1 else 0)) 0

/-- A valid literal is one or more characters, each `0` or `1`, whose value is at most 255
(70_reset_and_hazards.md R233). -/
def parseLiteral (text : List Char) : Option Byte :=
  if text ≠ [] ∧ text.all (fun c => c = '0' || c = '1') = true ∧ binaryValue text ≤ 255 then
    some (BitVec.ofNat 8 (binaryValue text))
  else none

/-- What one line gives: nothing, one byte, or an error (70_reset_and_hazards.md R232, R234). -/
inductive LineResult where
  | skip
  | byte (b : Byte)
  | bad
  deriving DecidableEq, Repr

/-- The reading of one line: strip the comment, trim, skip if nothing is left, else parse (70_reset_and_hazards.md
R232). -/
def readLine (line : List Char) : LineResult :=
  match trim (stripComment line) with
  | [] => .skip
  | c :: rest =>
    match parseLiteral (c :: rest) with
    | some b => .byte b
    | none => .bad

/-- The image of the lines that are left, the first of them line `number`, after `count` bytes. Lines are processed
in order and the first that fails is reported; a 257th byte fails as an image too long (70_reset_and_hazards.md
R234). -/
def parseLines (number count : Nat) (lines : List (List Char)) : Except LoadError (List Byte) :=
  match lines with
  | [] => .ok []
  | line :: rest =>
    match readLine line with
    | .skip => parseLines (number + 1) count rest
    | .bad => .error (.badLine number line)
    | .byte b =>
      if Config.memSize ≤ count then .error (.tooLong (count + 1))
      else
        match parseLines (number + 1) (count + 1) rest with
        | .ok image => .ok (b :: image)
        | .error e => .error e

/-- The image of a program text (70_reset_and_hazards.md R231, R232). -/
def parseProgram (text : List Char) : Except LoadError (List Byte) := parseLines 1 0 (splitLines text)

/-- The loader's writes: `M[i] <- b[i]` from address 0 up, nothing else (70_reset_and_hazards.md R231). It does not
check that the bytes form instructions (R235). -/
def loadImage (image : List Byte) (s : State) : State :=
  { s with mem := storeBytes Config.loadBase image s.mem }

/-- A fresh machine with the program of the text loaded. If the loader raises MalformedProgram, no step runs: the
machine is fresh with the status Faulted (70_reset_and_hazards.md R230, R234; 60_exceptions.md R202; log entry 7). -/
def boot (config : Config) (rInit : Vector Byte 7) (text : List Char) : State :=
  match parseProgram text with
  | .ok image => loadImage image (State.initial config rInit)
  | .error e => raise (.malformedProgram e) (State.initial config rInit)

end Sys2Proof.Machine
end

