-- ==== Sys2Proof/Machine/Run.lean ====
section
/-! DEFINITION. The run interface (70_reset_and_hazards.md R238 to R241), executed under a bound the host supplies. -/

namespace Sys2Proof.Machine

/-- What a run under a bound shows: one of the core's two endings, or no verdict when the bound ran out first, which
is no outcome of the core (70_reset_and_hazards.md R238, R240). -/
inductive Verdict where
  | halted (output : List Char)
  | faulted (c : Condition)
  | noVerdict
  deriving DecidableEq, Repr

/-- The character whose code point equals the value (42_load_and_output.md R133, D15). -/
def codePoint (v : Byte) : Char := Char.ofNat v.toNat

/-- The string a halted run returns: the characters of `out` in emission order (70_reset_and_hazards.md R238). -/
def outputText (out : List Byte) : List Char := out.map codePoint

/-- The ending a status is: a run ends exactly when the status leaves Running (70_reset_and_hazards.md R239). A
faulted run returns its condition and no output, and `diag` is in no outcome (R238). -/
def verdictOf (s : State) : Verdict :=
  match s.status with
  | .running => .noVerdict
  | .halted => .halted (outputText s.out)
  | .faulted c => .faulted c

/-- The run from a state under a bound on its steps. A step that is not defined ends it (70_reset_and_hazards.md
R240). -/
def runFor (fuel : Nat) (s : State) : Verdict :=
  match fuel with
  | 0 => verdictOf s
  | k + 1 =>
    match step s with
    | .next t => runFor k t
    | .fault _ => verdictOf s
    | .refused _ => verdictOf s

/-- `run(lines)`: load, then execute (70_reset_and_hazards.md R238). Each run builds its own machine (R241). -/
def runProgram (config : Config) (rInit : Vector Byte 7) (text : List Char) (fuel : Nat) : Verdict :=
  runFor fuel (boot config rInit text)

end Sys2Proof.Machine
end

