-- ==== Sys2Proof/Safety.lean ====
section
/-! DEFINITION. What the claims call a legal state and a safe run. -/

namespace Sys2Proof.Machine

/-- FL is 0 before the first comparison and exactly one of E, G, L afterwards (10_state.md R26, R27). -/
def flagsLegal (fl : Byte) : Prop := fl = 0x00#8 ∨ fl = 0x01#8 ∨ fl = 0x02#8 ∨ fl = 0x04#8

/-- The info a condition carries is what the table of conditions says (60_exceptions.md R200). -/
def Condition.legal (config : Config) : Condition → Prop
  | .malformedProgram _ => True
  | .outOfBounds .mem a => 255 < a
  | .outOfBounds .reg i => 8 ≤ i ∧ i ≤ 255
  | .outOfBounds .stack v => config.underflowCheck = true ∧ 0xF4 ≤ v ∧ v ≤ 0xFF
  | .unsupportedOperation op _ => mnemonicOf op = none ∧ (decodeFields op).isAlu = true
  | .invalidOpcode op _ => mnemonicOf op = none ∧ (decodeFields op).isAlu = false

/-- A status whose condition, if it has one, is legal. -/
def Status.legal (config : Config) : Status → Prop
  | .running => True
  | .halted => True
  | .faulted c => c.legal config

/-- The invariant of the machine: memory in its canonical form, pc in 0..258 (10_state.md R25), FL legal (R26, R27),
and the info of a raised condition as 60_exceptions.md R200 has it. -/
structure State.Inv (s : State) : Prop where
  mem_wf : Memory.wf s.mem = true
  pc_range : s.pc ≤ 258
  flags_legal : flagsLegal s.fl
  status_legal : s.status.legal s.config

/-- A run is safe for `k` steps when no condition is raised within them. -/
def safeFor (k : Nat) (s : State) : Prop := ∀ c, runFor k s ≠ .faulted c

end Sys2Proof.Machine
end

