-- ==== Sys2Proof/Certificates/Slice0/Obligations.lean ====
section
/-! DEFINITION. The statements about the machine, each a `def Obligations.<Name> : Prop`, and the few words they are
written in. The rule of spec/ a statement formalises is named in its docstring. -/

namespace Sys2Proof.Claims

open Sys2Proof Sys2Proof.Machine

/-- The instruction is encoded in these bytes, and they decode to it whatever follows them. -/
def Encodes (i : Instr) (bytes : List Byte) : Prop :=
  encode i = bytes ∧ ∀ rest, decode (bytes ++ rest) = .ok (i, rest)

/-- Executing the instruction raises the condition: the state is as before but for the status
(60_exceptions.md R203). -/
def Raises (i : Instr) (s : State) (c : Condition) : Prop := exec i s = .next { s with status := .faulted c }

/-- A register operand above 7 raises OutOfBounds(Reg, a). -/
def ChecksOneRegister (mk : Byte → Instr) : Prop :=
  ∀ (s : State) (a : Byte), 8 ≤ a.toNat → Raises (mk a) s (.outOfBounds .reg a.toNat)

/-- Register operands above 7 raise OutOfBounds(Reg, ·), a before b. -/
def ChecksTwoRegisters (mk : Byte → Byte → Instr) : Prop :=
  (∀ (s : State) (a b : Byte), 8 ≤ a.toNat → Raises (mk a b) s (.outOfBounds .reg a.toNat)) ∧
  (∀ (s : State) (a b : Byte), a.toNat < 8 → 8 ≤ b.toNat → Raises (mk a b) s (.outOfBounds .reg b.toNat))

/-- The eight ALU bytes of 40_execution_cycle.md. -/
def aluOps : List Byte := [0xA0#8, 0xA2#8, 0xA7#8, 0xA8#8, 0xAB#8, 0x65#8, 0x66#8, 0x69#8]

/-- The thirteen other bytes of 40_execution_cycle.md. -/
def nonAluOps : List Byte :=
  [0x00#8, 0x01#8, 0x11#8, 0x43#8, 0x45#8, 0x46#8, 0x47#8, 0x50#8, 0x54#8, 0x55#8, 0x56#8, 0x82#8, 0x83#8]

/-- All 256 opcode bytes. -/
def allBytes : List Byte := (List.range 256).map (BitVec.ofNat 8)

/-- The bytes of memory from pc to the top, address 255. -/
def bytesAtPc (s : State) : List Byte := (List.range' s.pc (256 - s.pc)).map (readCell s.mem)

/-- A pop of this state is not stopped by the underflow check (43_stack.md R153). -/
def PopAllowed (s : State) : Prop := s.config.underflowCheck = false ∨ (s.regs[7]).toNat < 0xF4

/-- The registers an instruction writes: its destination, and SP where it pushes or pops. -/
def writtenRegs : Instr → List Nat
  | .nop => []
  | .hlt => []
  | .ret => [7]
  | .pra _ => []
  | .push _ => [7]
  | .pop a => [a.toNat, 7]
  | .prn _ => []
  | .call _ => [7]
  | .jmp _ => []
  | .jeq _ => []
  | .jne _ => []
  | .inc a => [a.toNat]
  | .dec a => [a.toNat]
  | .not a => [a.toNat]
  | .ldi a _ => [a.toNat]
  | .ld a _ => [a.toNat]
  | .add a _ => [a.toNat]
  | .mul a _ => [a.toNat]
  | .cmp _ _ => []
  | .and a _ => [a.toNat]
  | .xor a _ => [a.toNat]

/-- The instructions that store to memory (20_memory.md R40). -/
def storesToMemory : Instr → Bool
  | .push _ => true
  | .call _ => true
  | .nop | .hlt | .ret | .pra _ | .pop _ | .prn _ | .jmp _ | .jeq _ | .jne _ | .inc _ | .dec _ | .not _
  | .ldi _ _ | .ld _ _ | .add _ _ | .mul _ _ | .cmp _ _ | .and _ _ | .xor _ _ => false

/-- The bytes a list of lines gives, counted. -/
def byteCount (lines : List (List Char)) : Nat :=
  lines.countP fun l => match readLine l with
    | .byte _ => true
    | .skip => false
    | .bad => false

end Sys2Proof.Claims

open Sys2Proof Sys2Proof.Machine Sys2Proof.Claims

/-! ### Encoding -/

/-- Decode of encode is the instruction, for every instruction, every operand byte and whatever bytes follow
(30_encoding.md R60, R63, R64). The opcode values are R65's, of which 18 are the spec's decision D1. -/
def Obligations.DecodeEncodeRoundTrip : Prop :=
  ∀ (i : Instr) (rest : List Byte), decode (encode i ++ rest) = .ok (i, rest)

/-- Whatever bytes decode to an instruction are that instruction's encoding, followed by the rest: every word has one
meaning and no second spelling (30_encoding.md R60, R65). -/
def Obligations.DecodedBytesAreTheEncoding : Prop :=
  ∀ (bytes rest : List Byte) (i : Instr), decode bytes = .ok (i, rest) → bytes = encode i ++ rest

/-- The decoder's triple, on every byte (30_encoding.md R61, R62). That bits 7..6 = 3 give a count of 3 is the spec's
decision D4. -/
def Obligations.DecoderTripleOnEveryByte : Prop :=
  ∀ op : Byte, decodeFields op =
    { operandCount := op.toNat / 64, isAlu := decide (op.toNat / 32 % 2 = 1), setsPc := decide (op.toNat / 16 % 2 = 1) }

/-- The fields of every defined opcode agree with its semantics: the operand count, the ALU flag, the sets-PC flag;
the three bytes of the source's example; distinct bytes for distinct instructions (30_encoding.md R66). -/
def Obligations.OpcodeFieldsAgreeWithSemantics : Prop :=
  (∀ i : Instr, (decodeFields (opcodeByte i.mnemonic)).operandCount = i.operands.length) ∧
  (∀ m : Mnemonic, (decodeFields (opcodeByte m)).isAlu = true ↔ m ∈ [.add, .mul, .and, .xor, .not, .inc, .dec, .cmp]) ∧
  (∀ m : Mnemonic, (decodeFields (opcodeByte m)).setsPc = true ↔ m ∈ [.call, .ret, .jmp, .jeq, .jne]) ∧
  opcodeByte .ldi = 0x82#8 ∧ opcodeByte .pra = 0x43#8 ∧ opcodeByte .hlt = 0x01#8 ∧
  (∀ m n : Mnemonic, opcodeByte m = opcodeByte n → m = n)

/-- The 256 byte values are 21 defined ones, 120 that are unsupported ALU operations and 115 that are invalid opcodes
(30_encoding.md R68, R69, R70; the opcode values are the spec's decision D1). -/
def Obligations.OpcodeSpaceSplits : Prop :=
  (allBytes.countP fun op => (mnemonicOf op).isSome) = 21 ∧
  (allBytes.countP fun op => decide (classify op = .error (.unsupportedOperation op))) = 120 ∧
  (allBytes.countP fun op => decide (classify op = .error (.invalidOpcode op))) = 115

/-- Words written out from the encodings of the spec decode to the instructions they stand for (a sanity check;
30_encoding.md R63, R65; 95_test_vectors.md P3). -/
def Obligations.SpecWordsDecode : Prop :=
  decode [0b10000010#8, 0b00000000#8, 0b01000001#8] = .ok (.ldi 0 0x41, []) ∧
  decode [0b01000011#8, 0b00000000#8] = .ok (.pra 0, []) ∧
  decode [0b00000001#8] = .ok (.hlt, []) ∧
  decode [0b10100010#8, 0b00000000#8, 0b00000001#8] = .ok (.mul 0 1, []) ∧
  decode [0b01000110#8, 0b00000001#8] = .ok (.pop 1, []) ∧
  decode [0b00010001#8] = .ok (.ret, []) ∧
  decode [0x48#8, 0x00#8] = .error (.invalidOpcode 0x48) ∧
  decode [0xA1#8, 0x00#8, 0x01#8] = .error (.unsupportedOperation 0xA1)

/-! ### The step -/

/-- A running machine whose bytes at pc decode to an instruction executes exactly it; the step adds nothing around
exec (40_execution_cycle.md R81 to R86, R89). -/
def Obligations.StepRunsDecodedInstruction : Prop :=
  ∀ (s : State) (i : Instr) (rest : List Byte), s.status = .running → decode (bytesAtPc s) = .ok (i, rest) →
    step s = exec i s

/-- The step reads the opcode byte at pc: what it fetches is an instruction with that opcode, and from above 255 it
raises OutOfBounds(Mem, pc), as it does after a NOP at 255 (40_execution_cycle.md R81). -/
def Obligations.OpcodeIsFetchedAtPc : Prop :=
  (∀ s : State, s.status = .running → 255 < s.pc →
    step s = .next { s with status := .faulted (.outOfBounds .mem s.pc) }) ∧
  (∀ (s : State) (i : Instr), fetch s = .ok i → s.pc ≤ 255 ∧ readCell s.mem s.pc = opcodeByte i.mnemonic) ∧
  (∀ s : State, s.status = .running → s.pc = 255 → readCell s.mem 255 = 0x00#8 →
    step s = .next { s with pc := 256 } ∧
    step { s with pc := 256 } = .next { s with pc := 256, status := .faulted (.outOfBounds .mem 256) })

/-- An opcode byte with the ALU flag that is none of the eight ALU bytes raises UnsupportedOperation with the byte and
its address, before any operand is fetched (40_execution_cycle.md R83). -/
def Obligations.UndefinedAluByteRaises : Prop :=
  ∀ s : State, s.status = .running → s.pc ≤ 255 → (readCell s.mem s.pc).getLsbD 5 = true →
    readCell s.mem s.pc ∉ aluOps →
    step s = .next { s with status := .faulted (.unsupportedOperation (readCell s.mem s.pc) s.pc) }

/-- An opcode byte without the ALU flag that is none of the thirteen others raises InvalidOpcode with the byte and its
address, before any operand is fetched (40_execution_cycle.md R84). -/
def Obligations.UndefinedOtherByteRaises : Prop :=
  ∀ s : State, s.status = .running → s.pc ≤ 255 → (readCell s.mem s.pc).getLsbD 5 = false →
    readCell s.mem s.pc ∉ nonAluOps →
    step s = .next { s with status := .faulted (.invalidOpcode (readCell s.mem s.pc) s.pc) }

/-- A defined opcode whose operand bytes run past 255 raises OutOfBounds(Mem, 256), the first missing address
(40_execution_cycle.md R85, 20_memory.md R44). That exactly the operand count is fetched, after classification, is
the spec's decision D5. -/
def Obligations.OperandFetchAboveMemoryRaises : Prop :=
  ∀ (s : State) (m : Mnemonic), s.status = .running → s.pc ≤ 255 → readCell s.mem s.pc = opcodeByte m →
    255 < s.pc + (decodeFields (opcodeByte m)).operandCount →
    step s = .next { s with status := .faulted (.outOfBounds .mem 256) }

/-- A step is defined exactly when the status is Running; no step leaves Halted or Faulted
(40_execution_cycle.md R80). -/
def Obligations.StepDefinedExactlyWhenRunning : Prop :=
  ∀ s : State, (∃ t, step s = .next t) ↔ s.status = .running

/-- A step that raises a condition leaves every piece of state as it was but the status, and the run then ends with
that condition (60_exceptions.md R203; 40_execution_cycle.md R90, an inference the spec marks as its own, log entry 4; that
step answers a named fault there is log entry 3, that a run is executed under a bound log entry 11). -/
def Obligations.RaiseIsPreciseAndEndsTheRun : Prop :=
  ∀ (s t : State) (c : Condition), step s = .next t → t.status = .faulted c →
    t = { s with status := .faulted c } ∧ step t = .fault (.conditionRaised c) ∧ ∀ k, runFor k t = .faulted c

/-- Which conditions are never raised where: MalformedProgram by no step; OutOfBounds(Mem, ·) by no data access of
LD, PUSH, POP or RET; OutOfBounds(Reg, ·) by no well-formed instruction (60_exceptions.md R201, R202;
20_memory.md R42, inferences the spec marks as its own; 30_encoding.md R64). -/
def Obligations.ConditionsNeverRaised : Prop :=
  (∀ (s t : State) (e : LoadError), step s = .next t → t.status ≠ .faulted (.malformedProgram e)) ∧
  (∀ (s t : State) (i : Instr) (x : Nat), s.status = .running →
    i.mnemonic ∈ [Mnemonic.ld, .push, .pop, .ret] → exec i s = .next t → t.status ≠ .faulted (.outOfBounds .mem x)) ∧
  (∀ (s t : State) (i : Instr) (x : Nat), s.status = .running → i.wellFormed = true → exec i s = .next t →
    t.status ≠ .faulted (.outOfBounds .reg x))

/-- Only HLT halts: from Running, an instruction leaves the status Running, or is HLT and halts, or raises
(10_state.md R32; 60_exceptions.md R212). The setting of UNDERFLOW_CHECK, the model's own field, never changes (log
entry 2). -/
def Obligations.StatusFrame : Prop :=
  (∀ (s t : State) (i : Instr), s.status = .running → exec i s = .next t →
    (i ≠ .hlt ∧ t.status = .running) ∨ (i = .hlt ∧ t.status = .halted) ∨ (∃ c, t.status = .faulted c)) ∧
  (∀ s t : State, step s = .next t → t.config = s.config)

/-- After an instruction whose sets-PC flag is 0 that ends in Running, pc has moved past its bytes
(40_execution_cycle.md R87; that HLT gets no advance is the spec's decision D16). -/
def Obligations.AutoAdvancePassesTheInstruction : Prop :=
  ∀ (s t : State) (i : Instr), (decodeFields (opcodeByte i.mnemonic)).setsPc = false → s.status = .running →
    exec i s = .next t → t.status = .running → t.pc = s.pc + (encode i).length

/-! ### Invariants and whole-machine rules -/

/-- Every step keeps the invariant: memory canonical, pc in 0..258 (10_state.md R25), FL one of 0x00, 0x01, 0x02, 0x04
(R26, R27), and the info of a raised condition as 60_exceptions.md R200 has it. -/
def Obligations.StepKeepsInvariant : Prop :=
  ∀ s t : State, s.Inv → step s = .next t → t.Inv

/-- The invariant holds after reset, and after every load, whatever R_INIT and UNDERFLOW_CHECK are, whether the load
succeeds or raises (70_reset_and_hazards.md R230, R231). The machine after a load that raises is the model's choice, log
entry 7; R0 to R6 and the configuration of State.reset are its choices too, log entries 1 and 2. -/
def Obligations.InvariantHoldsAtStart : Prop :=
  State.reset.Inv ∧ ∀ (config : Config) (rInit : Vector Byte 7) (text : List Char), (boot config rInit text).Inv

/-- Only CMP writes FL (41_alu.md R111; 10_state.md R26). A CMP that completes leaves FL 0x01, 0x02 or 0x04
(41_alu.md R108); that bits 7..3 are written 0 is the spec's decision D11, log entry 16. -/
def Obligations.OnlyCmpWritesFlags : Prop :=
  (∀ (s t : State) (i : Instr), i.mnemonic ≠ .cmp → exec i s = .next t → t.fl = s.fl) ∧
  (∀ (s t : State) (a b : Byte), s.status = .running → exec (.cmp a b) s = .next t → t.status = .running →
    t.fl = 0x01#8 ∨ t.fl = 0x02#8 ∨ t.fl = 0x04#8)

/-- Only PRA writes the output buffer and only PRN the diagnostic channel, and each only appends one value
(10_state.md R30, R31). -/
def Obligations.OutputsOnlyAppended : Prop :=
  ∀ (s t : State) (i : Instr), exec i s = .next t →
    (t.out = s.out ∨ ∃ a v, i = .pra a ∧ t.out = s.out ++ [v]) ∧
    (t.diag = s.diag ∨ ∃ a v, i = .prn a ∧ t.diag = s.diag ++ [v])

/-- Every byte of memory is unchanged by every instruction but PUSH and CALL, and by those two every byte but the one
at the address SP points at after its decrement (20_memory.md R40). -/
def Obligations.MemoryFrame : Prop :=
  (∀ (s t : State) (i : Instr), storesToMemory i = false → exec i s = .next t →
    ∀ a, readCell t.mem a = readCell s.mem a) ∧
  (∀ (s t : State) (i : Instr), storesToMemory i = true → exec i s = .next t →
    ∀ a, a ≠ (sp (decSp s)).toNat → readCell t.mem a = readCell s.mem a)

/-- Every register is unchanged but the instruction's destination and, for PUSH, POP, CALL and RET, SP
(10_state.md R20, R23; 41_alu.md R100). -/
def Obligations.RegisterFrame : Prop :=
  ∀ (s t : State) (i : Instr) (r : Fin 8), exec i s = .next t → r.val ∉ writtenRegs i → t.regs[r] = s.regs[r]

/-- The diagnostic channel is observed by nothing: runs from states that differ in it alone show the same verdict
under every bound (10_state.md R31, decision D14; 70_reset_and_hazards.md R238; the bound is log entry 11). -/
def Obligations.DiagnosticChannelIsUnobserved : Prop :=
  ∀ (k : Nat) (s : State) (d : List Byte), runFor k { s with diag := d } = runFor k s

/-- Nothing reads FL but its Equal bit: runs from states whose FL agree in E show the same verdict under every bound
(10_state.md R26; the bound is log entry 11). -/
def Obligations.OnlyEqualFlagIsObserved : Prop :=
  ∀ (k : Nat) (s : State) (f : Byte), f.getLsbD 0 = s.fl.getLsbD 0 → runFor k { s with fl := f } = runFor k s

/-- A run whose verdict is in under a bound has the same verdict under every larger bound
(70_reset_and_hazards.md R239, R240; decision D18, log entry 11). -/
def Obligations.VerdictIsStableUnderMoreFuel : Prop :=
  ∀ (k j : Nat) (s : State), runFor k s ≠ .noVerdict → runFor (k + j) s = runFor k s

/-! ### Registers, memory, reset, loader -/

/-- The memory accessors: an address above 255 fails and stores nothing; a write is read back, and every other address
reads as before (20_memory.md R41). -/
def Obligations.MemoryAccessors : Prop :=
  (∀ (s : State) (a : Nat) (v : Byte), 255 < a →
    memRead a s = .error (.outOfBounds .mem a) ∧ memWrite a v s = .error (.outOfBounds .mem a)) ∧
  (∀ (s : State) (a : Nat) (v : Byte), a ≤ 255 → ∃ t, memWrite a v s = .ok t ∧ memRead a t = .ok v ∧
    (∀ b, b ≤ 255 → b ≠ a → memRead b t = memRead b s) ∧ t = { s with mem := t.mem })

/-- The register file's accessors: an index above 7 fails on read and on write; a write stores its value modulo 256,
negative values included, is read back, and leaves every other register as it was (10_state.md R20, R21;
95_test_vectors.md S1; that a write truncates is R22, the spec's decision D2). -/
def Obligations.RegisterFileAccessors : Prop :=
  (∀ (s : State) (i : Byte) (v : Int), 8 ≤ i.toNat →
    getReg i s = .error (.outOfBounds .reg i.toNat) ∧ setReg i v s = .error (.outOfBounds .reg i.toNat)) ∧
  (∀ (s : State) (i : Byte) (v : Int), i.toNat < 8 → ∃ t w, setReg i v s = .ok t ∧ getReg i t = .ok w ∧
    (w.toNat : Int) = v % 256 ∧ (∀ j : Byte, j ≠ i → getReg j t = getReg j s) ∧ t = { s with regs := t.regs })

/-- What reset leaves (70_reset_and_hazards.md R230; 10_state.md R24, R25): SP 0xF4, pc 0, empty outputs, Running and
zeroed memory; R0 to R6 are R_INIT, any values; FL is 0, the spec's decision D10. State.reset takes R_INIT as zeros
and the standard configuration, the model's choices (log entries 1 and 2). -/
def Obligations.ResetLeaves : Prop :=
  (∀ (config : Config) (rInit : Vector Byte 7),
    (State.initial config rInit).regs[7] = 0xF4#8 ∧
    (∀ r : Fin 7, (State.initial config rInit).regs[r.val] = rInit[r]) ∧
    (State.initial config rInit).fl = 0x00#8 ∧ (State.initial config rInit).pc = 0 ∧
    (State.initial config rInit).out = [] ∧ (State.initial config rInit).diag = [] ∧
    (State.initial config rInit).status = .running ∧ (State.initial config rInit).config = config ∧
    (∀ a, readCell (State.initial config rInit).mem a = 0x00#8)) ∧
  State.reset = State.initial { underflowCheck := false } (Vector.replicate 7 0x00#8)

/-- A successful load: at most 256 bytes, written from address 0 up, every other cell zero, and the rest of the
machine as after reset (70_reset_and_hazards.md R230, R231). -/
def Obligations.LoadedMachine : Prop :=
  ∀ (config : Config) (rInit : Vector Byte 7) (text : List Char) (image : List Byte), parseProgram text = .ok image →
    image.length ≤ 256 ∧ (∀ a, readCell (boot config rInit text).mem a = image.getD a 0x00#8) ∧
    boot config rInit text = { State.initial config rInit with mem := (boot config rInit text).mem }

/-- A failed load: the run is faulted with MalformedProgram before any step, with no output
(60_exceptions.md R202; 70_reset_and_hazards.md R234). That step answers a named fault there is log entry 3, the machine
a failed load leaves is the model's choice, log entry 7, and the bound of the run log entry 11. -/
def Obligations.FailedLoadRunsNoStep : Prop :=
  ∀ (config : Config) (rInit : Vector Byte 7) (text : List Char) (e : LoadError), parseProgram text = .error e →
    step (boot config rInit text) = .fault (.conditionRaised (.malformedProgram e)) ∧
    (boot config rInit text).out = [] ∧
    ∀ k, runProgram config rInit text k = .faulted (.malformedProgram e)

/-- A text of one byte a line loads as those bytes if there are at most 256, and is too long at the 257th otherwise
(70_reset_and_hazards.md R231 to R234; the literal format is the spec's decision D17). That the condition carries the count
257 is log entry 6, that the program is one text split at line feeds log entry 15. -/
def Obligations.LoaderReadsProgramText : Prop :=
  (∀ image : List Byte, image.length ≤ 256 → parseProgram (programText image) = .ok image) ∧
  (∀ image : List Byte, 256 < image.length → parseProgram (programText image) = .error (.tooLong 257))

/-- Lines are processed in order and the first that fails is the one reported (70_reset_and_hazards.md R234; that its
number is carried is the model's choice, log entry 6). -/
def Obligations.LoaderReportsFirstBadLine : Prop :=
  ∀ (before after : List (List Char)) (line : List Char), (∀ l ∈ before, readLine l ≠ .bad) → byteCount before ≤ 256 →
    readLine line = .bad →
    parseLines 1 0 (before ++ line :: after) = .error (.badLine (before.length + 1) line)

/-- A valid literal is one or more characters, each 0 or 1, of value at most 255, and a leading zero changes nothing
(70_reset_and_hazards.md R233, the spec's decision D17). -/
def Obligations.LiteralValidity : Prop :=
  (∀ (text : List Char) (b : Byte), parseLiteral text = some b ↔
    text ≠ [] ∧ (∀ c ∈ text, c = '0' ∨ c = '1') ∧ binaryValue text = b.toNat) ∧
  (∀ text : List Char, text ≠ [] → parseLiteral ('0' :: text) = parseLiteral text)

/-- A comment, and whitespace around what is left, change nothing in what a line gives (70_reset_and_hazards.md R232;
the set of whitespace characters is the spec's decision D17). -/
def Obligations.LoaderIgnoresCommentsAndMargins : Prop :=
  ∀ left line right comment : List Char, '#' ∉ line → left.all isWhitespace = true → right.all isWhitespace = true →
    readLine (left ++ line ++ right ++ '#' :: comment) = readLine line ∧
    readLine (left ++ line ++ right) = readLine line

/-! ### ALU instructions -/

/-- ADD (41_alu.md R101; that the sum wraps is the spec's decision D2). -/
def Obligations.AddResult : Prop :=
  (∀ a b, Encodes (.add a b) [0xA0#8, a, b]) ∧
  (∀ (s : State) (a b : Byte) (ra rb : Fin 8), s.status = .running → a.toNat = ra → b.toNat = rb →
    exec (.add a b) s = .next { s with
      regs := s.regs.set ra (BitVec.ofNat 8 (((s.regs[ra]).toNat + (s.regs[rb]).toNat) % 256)), pc := s.pc + 3 }) ∧
  ChecksTwoRegisters .add

/-- MUL (41_alu.md R102; that the high byte is lost is the spec's decision D2). -/
def Obligations.MulResult : Prop :=
  (∀ a b, Encodes (.mul a b) [0xA2#8, a, b]) ∧
  (∀ (s : State) (a b : Byte) (ra rb : Fin 8), s.status = .running → a.toNat = ra → b.toNat = rb →
    exec (.mul a b) s = .next { s with
      regs := s.regs.set ra (BitVec.ofNat 8 (((s.regs[ra]).toNat * (s.regs[rb]).toNat) % 256)), pc := s.pc + 3 }) ∧
  ChecksTwoRegisters .mul

/-- AND (41_alu.md R103). -/
def Obligations.AndResult : Prop :=
  (∀ a b, Encodes (.and a b) [0xA8#8, a, b]) ∧
  (∀ (s : State) (a b : Byte) (ra rb : Fin 8), s.status = .running → a.toNat = ra → b.toNat = rb →
    exec (.and a b) s = .next { s with regs := s.regs.set ra (s.regs[ra] &&& s.regs[rb]), pc := s.pc + 3 }) ∧
  ChecksTwoRegisters .and

/-- XOR (41_alu.md R104). -/
def Obligations.XorResult : Prop :=
  (∀ a b, Encodes (.xor a b) [0xAB#8, a, b]) ∧
  (∀ (s : State) (a b : Byte) (ra rb : Fin 8), s.status = .running → a.toNat = ra → b.toNat = rb →
    exec (.xor a b) s = .next { s with regs := s.regs.set ra (s.regs[ra] ^^^ s.regs[rb]), pc := s.pc + 3 }) ∧
  ChecksTwoRegisters .xor

/-- NOT: the 8-bit complement, 255 - x[a], which an unbounded complement -x[a] - 1 reduced modulo 256 also gives
(41_alu.md R105). -/
def Obligations.NotResult : Prop :=
  (∀ a, Encodes (.not a) [0x69#8, a]) ∧
  (∀ (s : State) (a : Byte) (ra : Fin 8), s.status = .running → a.toNat = ra →
    exec (.not a) s = .next { s with
      regs := s.regs.set ra (BitVec.ofNat 8 (255 - (s.regs[ra]).toNat)), pc := s.pc + 2 }) ∧
  (∀ x : Byte, BitVec.ofNat 8 (255 - x.toNat) = BitVec.ofInt 8 (-(x.toNat : Int) - 1)) ∧
  ChecksOneRegister .not

/-- INC (41_alu.md R106; that 255 wraps to 0 is the spec's decision D2). -/
def Obligations.IncResult : Prop :=
  (∀ a, Encodes (.inc a) [0x65#8, a]) ∧
  (∀ (s : State) (a : Byte) (ra : Fin 8), s.status = .running → a.toNat = ra →
    exec (.inc a) s = .next { s with
      regs := s.regs.set ra (BitVec.ofNat 8 (((s.regs[ra]).toNat + 1) % 256)), pc := s.pc + 2 }) ∧
  ChecksOneRegister .inc

/-- DEC: minus one modulo 256, written as plus 255 (41_alu.md R107; that 0 wraps to 255 is the spec's decision D2). -/
def Obligations.DecResult : Prop :=
  (∀ a, Encodes (.dec a) [0x66#8, a]) ∧
  (∀ (s : State) (a : Byte) (ra : Fin 8), s.status = .running → a.toNat = ra →
    exec (.dec a) s = .next { s with
      regs := s.regs.set ra (BitVec.ofNat 8 (((s.regs[ra]).toNat + 255) % 256)), pc := s.pc + 2 }) ∧
  ChecksOneRegister .dec

/-- CMP: FL is 0x01, 0x04 or 0x02 whole, by the unsigned order (41_alu.md R108; that bits 7..3 are clear is the spec's
decision D11). -/
def Obligations.CmpResult : Prop :=
  (∀ a b, Encodes (.cmp a b) [0xA7#8, a, b]) ∧
  (∀ (s : State) (a b : Byte) (ra rb : Fin 8), s.status = .running → a.toNat = ra → b.toNat = rb →
    exec (.cmp a b) s = .next { s with
      fl := if s.regs[ra] = s.regs[rb] then 0x01#8
            else if (s.regs[ra]).toNat < (s.regs[rb]).toNat then 0x04#8 else 0x02#8
      pc := s.pc + 3 }) ∧
  ChecksTwoRegisters .cmp

/-- SUB and DIV have no byte and raise UnsupportedOperation where an identifier is dispatched; the other identifiers
are dispatched to their instructions, under the bytes of those; no byte of SUB's or DIV's elsewhere is defined
(41_alu.md R117; the bytes 0xA1 and 0xA3 are general knowledge the spec adds). That the dispatch takes an opcode byte, which
the conditions of SUB and DIV carry, is the model's choice, log entry 13. -/
def Obligations.SubAndDivAreReserved : Prop :=
  aluByte .sub = none ∧ aluByte .div = none ∧
  (∀ (s : State) (op a b : Byte),
    aluDispatch .sub op a b s = .next { s with status := .faulted (.unsupportedOperation op s.pc) } ∧
    aluDispatch .div op a b s = .next { s with status := .faulted (.unsupportedOperation op s.pc) }) ∧
  (∀ (id : AluIdent) (op : Byte), aluByte id = some op → ∃ m, mnemonicOf op = some m ∧
    ∀ (s : State) (a b : Byte), aluDispatch id op a b s = exec (build m a b) s) ∧
  classify 0xA1#8 = .error (.unsupportedOperation 0xA1) ∧ classify 0xA3#8 = .error (.unsupportedOperation 0xA3)

/-! ### Load and output instructions -/

/-- LDI: the immediate is the whole operand byte and is never checked (42_load_and_output.md R130). -/
def Obligations.LdiResult : Prop :=
  (∀ a imm, Encodes (.ldi a imm) [0x82#8, a, imm]) ∧
  (∀ (s : State) (a imm : Byte) (ra : Fin 8), s.status = .running → a.toNat = ra →
    exec (.ldi a imm) s = .next { s with regs := s.regs.set ra imm, pc := s.pc + 3 }) ∧
  (∀ (s : State) (a imm : Byte), 8 ≤ a.toNat → Raises (.ldi a imm) s (.outOfBounds .reg a.toNat))

/-- LD: the byte at the address in x[b] (42_load_and_output.md R131). -/
def Obligations.LdResult : Prop :=
  (∀ a b, Encodes (.ld a b) [0x83#8, a, b]) ∧
  (∀ (s : State) (a b : Byte) (ra rb : Fin 8), s.status = .running → a.toNat = ra → b.toNat = rb →
    exec (.ld a b) s = .next { s with
      regs := s.regs.set ra (readCell s.mem (s.regs[rb]).toNat), pc := s.pc + 3 }) ∧
  ChecksTwoRegisters .ld

/-- PRN: the register's value is appended to the diagnostic channel and the output buffer is unchanged
(42_load_and_output.md R132; that the channel records 8-bit values is the spec's decision D14). -/
def Obligations.PrnResult : Prop :=
  (∀ a, Encodes (.prn a) [0x47#8, a]) ∧
  (∀ (s : State) (a : Byte) (ra : Fin 8), s.status = .running → a.toNat = ra →
    exec (.prn a) s = .next { s with diag := s.diag ++ [s.regs[ra]], pc := s.pc + 2 }) ∧
  ChecksOneRegister .prn

/-- PRA: the code point equal to the register's value is appended to the output buffer; no value is refused
(42_load_and_output.md R133; values 128..255 and the unlimited length are the spec's decision D15). -/
def Obligations.PraResult : Prop :=
  (∀ a, Encodes (.pra a) [0x43#8, a]) ∧
  (∀ (s : State) (a : Byte) (ra : Fin 8), s.status = .running → a.toNat = ra →
    exec (.pra a) s = .next { s with out := s.out ++ [s.regs[ra]], pc := s.pc + 2 }) ∧
  ChecksOneRegister .pra ∧
  (∀ v : Byte, (codePoint v).toNat = v.toNat)

/-! ### Stack instructions -/

/-- PUSH: SP goes down by one modulo 256 and the cell there takes x[a] as it then is, so PUSH R7 stores the
decremented SP (43_stack.md R151; that reading of PUSH R7 is the spec's decision D13, the wrap its decision D2). -/
def Obligations.PushResult : Prop :=
  (∀ a, Encodes (.push a) [0x45#8, a]) ∧
  (∀ (s : State) (a : Byte) (ra : Fin 8), s.status = .running → a.toNat = ra →
    exec (.push a) s = .next { s with
      regs := s.regs.set 7 (s.regs[7] - 1#8)
      mem := writeCell s.mem (s.regs[7] - 1#8).toNat ((s.regs.set 7 (s.regs[7] - 1#8))[ra])
      pc := s.pc + 2 }) ∧
  ChecksOneRegister .push

/-- POP: x[a] takes the byte SP points at, then SP goes up by one modulo 256 from what it then is, so POP R7 ends with
the popped byte plus one; an empty stack is read like any other cell unless the check is on (43_stack.md R152, R153;
POP R7 is the spec's decision D13, the wrap D2, the check's default D12). -/
def Obligations.PopResult : Prop :=
  (∀ a, Encodes (.pop a) [0x46#8, a]) ∧
  (∀ (s : State) (a : Byte) (ra : Fin 8), s.status = .running → a.toNat = ra → PopAllowed s →
    exec (.pop a) s = .next { s with
      regs := (s.regs.set ra (readCell s.mem (s.regs[7]).toNat)).set 7
        ((s.regs.set ra (readCell s.mem (s.regs[7]).toNat))[7] + 1#8)
      pc := s.pc + 2 }) ∧
  ChecksOneRegister .pop

/-- The underflow check: when it is on and SP is at or above 0xF4, POP of a register and RET raise
OutOfBounds(Stack, SP), and no instruction raises that condition otherwise (43_stack.md R153; the check is the spec's
decision D12). -/
def Obligations.UnderflowCheckRaises : Prop :=
  (∀ (s : State) (a : Byte), a.toNat < 8 → s.config.underflowCheck = true → 0xF4 ≤ (s.regs[7]).toNat →
    Raises (.pop a) s (.outOfBounds .stack (s.regs[7]).toNat)) ∧
  (∀ s : State, s.config.underflowCheck = true → 0xF4 ≤ (s.regs[7]).toNat →
    Raises .ret s (.outOfBounds .stack (s.regs[7]).toNat)) ∧
  (∀ (s t : State) (i : Instr) (v : Nat), s.status = .running → exec i s = .next t →
    t.status = .faulted (.outOfBounds .stack v) →
    i.mnemonic ∈ [Mnemonic.pop, .ret] ∧ s.config.underflowCheck = true ∧ v = (s.regs[7]).toNat ∧ 0xF4 ≤ v)

/-- PUSH then POP into another register copies the value and restores SP, neither register being SP itself
(43_stack.md R152; 95_test_vectors.md S3). -/
def Obligations.PushThenPopCopies : Prop :=
  ∀ (s : State) (a b : Byte) (ra rb : Fin 8), s.status = .running → a.toNat = ra → b.toNat = rb → ra ≠ 7 → rb ≠ 7 →
    (s.config.underflowCheck = false ∨ (s.regs[7] - 1#8).toNat < 0xF4) →
    ∃ t u, exec (.push a) s = .next t ∧ exec (.pop b) t = .next u ∧ u.status = .running ∧ u.pc = s.pc + 4 ∧
      ∀ r : Fin 8, u.regs[r] = if r = rb then s.regs[ra] else s.regs[r]

/-! ### Control transfer -/

/-- CALL: the return address pc + 2 is pushed, then pc takes x[a] as it then is, so CALL R7 jumps to the decremented
SP; a return address above 255 raises before any write (44_control_transfer.md R171; decisions D8, D13, D2). -/
def Obligations.CallResult : Prop :=
  (∀ a, Encodes (.call a) [0x50#8, a]) ∧
  (∀ (s : State) (a : Byte) (ra : Fin 8), a.toNat = ra → s.pc + 2 ≤ 255 →
    exec (.call a) s = .next { s with
      regs := s.regs.set 7 (s.regs[7] - 1#8)
      mem := writeCell s.mem (s.regs[7] - 1#8).toNat (BitVec.ofNat 8 (s.pc + 2))
      pc := ((s.regs.set 7 (s.regs[7] - 1#8))[ra]).toNat }) ∧
  (∀ (s : State) (a : Byte), a.toNat < 8 → 255 < s.pc + 2 → Raises (.call a) s (.outOfBounds .mem (s.pc + 2))) ∧
  ChecksOneRegister .call

/-- RET: pc takes the byte SP points at, whatever it is, and SP goes up by one modulo 256 (44_control_transfer.md
R172; the check's default is the spec's decision D12, the wrap D2). -/
def Obligations.RetResult : Prop :=
  Encodes .ret [0x11#8] ∧
  (∀ s : State, PopAllowed s →
    exec .ret s = .next { s with
      regs := s.regs.set 7 (s.regs[7] + 1#8), pc := (readCell s.mem (s.regs[7]).toNat).toNat })

/-- CALL and a later RET with the stack balanced in between resume at the CALL's address plus 2
(44_control_transfer.md R172; 95_test_vectors.md S4). -/
def Obligations.RetResumesAfterCall : Prop :=
  ∀ (s t v : State) (a : Byte), a.toNat < 8 → s.pc + 2 ≤ 255 → exec (.call a) s = .next t →
    v.regs[7] = t.regs[7] → readCell v.mem (v.regs[7]).toNat = readCell t.mem (t.regs[7]).toNat → PopAllowed v →
    ∃ u, exec .ret v = .next u ∧ u.pc = s.pc + 2 ∧ u.regs[7] = s.regs[7]

/-- JMP; a jump to its own address leaves the state as it was (44_control_transfer.md R173). -/
def Obligations.JmpResult : Prop :=
  (∀ a, Encodes (.jmp a) [0x54#8, a]) ∧
  (∀ (s : State) (a : Byte) (ra : Fin 8), a.toNat = ra → exec (.jmp a) s = .next { s with pc := (s.regs[ra]).toNat }) ∧
  (∀ (s : State) (a : Byte) (ra : Fin 8), a.toNat = ra → (s.regs[ra]).toNat = s.pc → exec (.jmp a) s = .next s) ∧
  ChecksOneRegister .jmp

/-- JEQ: taken when FL.E is set; when not, pc goes on by 2 and no register is read, so a bad operand raises nothing
(44_control_transfer.md R174; the last point is the spec's decision D23). -/
def Obligations.JeqResult : Prop :=
  (∀ a, Encodes (.jeq a) [0x55#8, a]) ∧
  (∀ (s : State) (a : Byte) (ra : Fin 8), s.fl.getLsbD 0 = true → a.toNat = ra →
    exec (.jeq a) s = .next { s with pc := (s.regs[ra]).toNat }) ∧
  (∀ (s : State) (a : Byte), s.fl.getLsbD 0 = false → exec (.jeq a) s = .next { s with pc := s.pc + 2 }) ∧
  (∀ (s : State) (a : Byte), s.fl.getLsbD 0 = true → 8 ≤ a.toNat → Raises (.jeq a) s (.outOfBounds .reg a.toNat))

/-- JNE: taken when FL.E is clear; when not, pc goes on by 2 and no register is read, so a bad operand raises nothing
(44_control_transfer.md R175; the last point is the spec's decision D23). -/
def Obligations.JneResult : Prop :=
  (∀ a, Encodes (.jne a) [0x56#8, a]) ∧
  (∀ (s : State) (a : Byte) (ra : Fin 8), s.fl.getLsbD 0 = false → a.toNat = ra →
    exec (.jne a) s = .next { s with pc := (s.regs[ra]).toNat }) ∧
  (∀ (s : State) (a : Byte), s.fl.getLsbD 0 = true → exec (.jne a) s = .next { s with pc := s.pc + 2 }) ∧
  (∀ (s : State) (a : Byte), s.fl.getLsbD 0 = false → 8 ≤ a.toNat → Raises (.jne a) s (.outOfBounds .reg a.toNat))

/-- JEQ and JNE have the sets-PC flag and still move pc on by their operand count plus 1 when not taken, by their own
handlers (40_execution_cycle.md R88). -/
def Obligations.ConditionalJumpsFallThrough : Prop :=
  (decodeFields (opcodeByte .jeq)).setsPc = true ∧ (decodeFields (opcodeByte .jne)).setsPc = true ∧
  (∀ (s : State) (a : Byte), s.fl.getLsbD 0 = false →
    exec (.jeq a) s = .next { s with pc := s.pc + (decodeFields (opcodeByte .jeq)).operandCount + 1 }) ∧
  (∀ (s : State) (a : Byte), s.fl.getLsbD 0 = true →
    exec (.jne a) s = .next { s with pc := s.pc + (decodeFields (opcodeByte .jne)).operandCount + 1 }) ∧
  (decodeFields (opcodeByte .jeq)).operandCount + 1 = 2 ∧ (decodeFields (opcodeByte .jne)).operandCount + 1 = 2

/-! ### System instructions -/

/-- NOP: only pc changes, by 1 (45_system.md R190). -/
def Obligations.NopResult : Prop :=
  Encodes .nop [0x00#8] ∧ ∀ s : State, s.status = .running → exec .nop s = .next { s with pc := s.pc + 1 }

/-- HLT: the status is Halted, nothing else changes, pc keeps HLT's address, and the run returns the output whole
(45_system.md R191; that pc makes no advance is the spec's decision D16; that step answers a named fault from there is
log entry 3, the bound of the run log entry 11). -/
def Obligations.HltResult : Prop :=
  Encodes .hlt [0x01#8] ∧ ∀ s : State, exec .hlt s = .next { s with status := .halted } ∧
    step { s with status := .halted } = .fault .halted ∧
    ∀ k, runFor k { s with status := .halted } = .halted (s.out.map fun v => Char.ofNat v.toNat)
end

