-- ==== Sys2Proof/Laws/Decode.lean ====
section
/-! SUPPORT. The opcode map read both ways, and the fields of the defined opcodes. -/

namespace Sys2Proof

theorem Mnemonic.mem_all (m : Mnemonic) : m ∈ Mnemonic.all := by cases m <;> decide

/-- The byte of a mnemonic names that mnemonic (30_encoding.md R65). -/
@[simp] theorem mnemonicOf_opcodeByte (m : Mnemonic) : mnemonicOf (opcodeByte m) = some m := by cases m <;> decide

/-- A byte that names a mnemonic is that mnemonic's byte (30_encoding.md R65). -/
theorem opcodeByte_of_mnemonicOf {op : Byte} {m : Mnemonic} (h : mnemonicOf op = some m) : opcodeByte m = op := by
  simpa using List.find?_some h

@[simp] theorem classify_opcodeByte (m : Mnemonic) : classify (opcodeByte m) = .ok m := by simp [classify]

/-- Everything classification can answer when it accepts. -/
theorem classify_eq_ok {op : Byte} {m : Mnemonic} : classify op = .ok m ↔ op = opcodeByte m := by
  constructor
  · intro h
    unfold classify at h
    split at h
    · next m' hm => cases h; exact (opcodeByte_of_mnemonicOf hm).symm
    · split at h <;> cases h
  · rintro rfl; simp

/-- Everything classification can answer when it rejects (30_encoding.md R68, R69). -/
theorem classify_eq_error {op : Byte} {e : DecodeError} : classify op = .error e ↔
    mnemonicOf op = none ∧ e = if (decodeFields op).isAlu then .unsupportedOperation op else .invalidOpcode op := by
  unfold classify
  split
  · next m hm => simp [hm]
  · next hm =>
    split
    · exact ⟨fun h => ⟨hm, (Except.error.inj h).symm⟩, fun h => congrArg _ h.2.symm⟩
    · exact ⟨fun h => ⟨hm, (Except.error.inj h).symm⟩, fun h => congrArg _ h.2.symm⟩

/-- The number of operand bytes is the operand count of the opcode (30_encoding.md R66). -/
theorem operandCount_opcodeByte (i : Instr) :
    (decodeFields (opcodeByte i.mnemonic)).operandCount = i.operands.length := by
  cases i <;> simp only [Instr.mnemonic, Instr.operands, List.length_cons, List.length_nil] <;> decide

/-- What is built from a mnemonic has that mnemonic. -/
@[simp] theorem mnemonic_build (m : Mnemonic) (a b : Byte) : (build m a b).mnemonic = m := by cases m <;> rfl

namespace Machine

@[simp] theorem fieldsOf_nop : fieldsOf .nop = ⟨0, false, false⟩ := by decide
@[simp] theorem fieldsOf_hlt : fieldsOf .hlt = ⟨0, false, false⟩ := by decide
@[simp] theorem fieldsOf_ret : fieldsOf .ret = ⟨0, false, true⟩ := by decide
@[simp] theorem fieldsOf_pra : fieldsOf .pra = ⟨1, false, false⟩ := by decide
@[simp] theorem fieldsOf_push : fieldsOf .push = ⟨1, false, false⟩ := by decide
@[simp] theorem fieldsOf_pop : fieldsOf .pop = ⟨1, false, false⟩ := by decide
@[simp] theorem fieldsOf_prn : fieldsOf .prn = ⟨1, false, false⟩ := by decide
@[simp] theorem fieldsOf_call : fieldsOf .call = ⟨1, false, true⟩ := by decide
@[simp] theorem fieldsOf_jmp : fieldsOf .jmp = ⟨1, false, true⟩ := by decide
@[simp] theorem fieldsOf_jeq : fieldsOf .jeq = ⟨1, false, true⟩ := by decide
@[simp] theorem fieldsOf_jne : fieldsOf .jne = ⟨1, false, true⟩ := by decide
@[simp] theorem fieldsOf_inc : fieldsOf .inc = ⟨1, true, false⟩ := by decide
@[simp] theorem fieldsOf_dec : fieldsOf .dec = ⟨1, true, false⟩ := by decide
@[simp] theorem fieldsOf_not : fieldsOf .not = ⟨1, true, false⟩ := by decide
@[simp] theorem fieldsOf_ldi : fieldsOf .ldi = ⟨2, false, false⟩ := by decide
@[simp] theorem fieldsOf_ld : fieldsOf .ld = ⟨2, false, false⟩ := by decide
@[simp] theorem fieldsOf_add : fieldsOf .add = ⟨2, true, false⟩ := by decide
@[simp] theorem fieldsOf_mul : fieldsOf .mul = ⟨2, true, false⟩ := by decide
@[simp] theorem fieldsOf_cmp : fieldsOf .cmp = ⟨2, true, false⟩ := by decide
@[simp] theorem fieldsOf_and : fieldsOf .and = ⟨2, true, false⟩ := by decide
@[simp] theorem fieldsOf_xor : fieldsOf .xor = ⟨2, true, false⟩ := by decide

end Machine

end Sys2Proof
end

