-- ==== Sys2Proof/Laws/State.lean ====
section
/-! SUPPORT. One lemma per field per named update of State: what the update leaves in the field. -/

namespace Sys2Proof.Machine

variable (s : State)

@[simp] theorem writeReg_regs (r : Fin 8) (v : Int) : (writeReg r v s).regs = s.regs.set r (truncate v) := rfl
@[simp] theorem writeReg_pc (r : Fin 8) (v : Int) : (writeReg r v s).pc = s.pc := rfl
@[simp] theorem writeReg_fl (r : Fin 8) (v : Int) : (writeReg r v s).fl = s.fl := rfl
@[simp] theorem writeReg_mem (r : Fin 8) (v : Int) : (writeReg r v s).mem = s.mem := rfl
@[simp] theorem writeReg_out (r : Fin 8) (v : Int) : (writeReg r v s).out = s.out := rfl
@[simp] theorem writeReg_diag (r : Fin 8) (v : Int) : (writeReg r v s).diag = s.diag := rfl
@[simp] theorem writeReg_status (r : Fin 8) (v : Int) : (writeReg r v s).status = s.status := rfl
@[simp] theorem writeReg_config (r : Fin 8) (v : Int) : (writeReg r v s).config = s.config := rfl

@[simp] theorem setSp_regs (v : Int) : (setSp v s).regs = s.regs.set spIndex (truncate v) := rfl
@[simp] theorem setSp_pc (v : Int) : (setSp v s).pc = s.pc := rfl
@[simp] theorem setSp_fl (v : Int) : (setSp v s).fl = s.fl := rfl
@[simp] theorem setSp_mem (v : Int) : (setSp v s).mem = s.mem := rfl
@[simp] theorem setSp_out (v : Int) : (setSp v s).out = s.out := rfl
@[simp] theorem setSp_diag (v : Int) : (setSp v s).diag = s.diag := rfl
@[simp] theorem setSp_status (v : Int) : (setSp v s).status = s.status := rfl
@[simp] theorem setSp_config (v : Int) : (setSp v s).config = s.config := rfl

@[simp] theorem decSp_regs : (decSp s).regs = s.regs.set spIndex (truncate ((sp s).toNat - 1)) := rfl
@[simp] theorem decSp_pc : (decSp s).pc = s.pc := rfl
@[simp] theorem decSp_fl : (decSp s).fl = s.fl := rfl
@[simp] theorem decSp_mem : (decSp s).mem = s.mem := rfl
@[simp] theorem decSp_out : (decSp s).out = s.out := rfl
@[simp] theorem decSp_diag : (decSp s).diag = s.diag := rfl
@[simp] theorem decSp_status : (decSp s).status = s.status := rfl
@[simp] theorem decSp_config : (decSp s).config = s.config := rfl

@[simp] theorem incSp_regs : (incSp s).regs = s.regs.set spIndex (truncate ((sp s).toNat + 1)) := rfl
@[simp] theorem incSp_pc : (incSp s).pc = s.pc := rfl
@[simp] theorem incSp_fl : (incSp s).fl = s.fl := rfl
@[simp] theorem incSp_mem : (incSp s).mem = s.mem := rfl
@[simp] theorem incSp_out : (incSp s).out = s.out := rfl
@[simp] theorem incSp_diag : (incSp s).diag = s.diag := rfl
@[simp] theorem incSp_status : (incSp s).status = s.status := rfl
@[simp] theorem incSp_config : (incSp s).config = s.config := rfl

@[simp] theorem setPc_regs (t : Nat) : (setPc t s).regs = s.regs := rfl
@[simp] theorem setPc_pc (t : Nat) : (setPc t s).pc = t := rfl
@[simp] theorem setPc_fl (t : Nat) : (setPc t s).fl = s.fl := rfl
@[simp] theorem setPc_mem (t : Nat) : (setPc t s).mem = s.mem := rfl
@[simp] theorem setPc_out (t : Nat) : (setPc t s).out = s.out := rfl
@[simp] theorem setPc_diag (t : Nat) : (setPc t s).diag = s.diag := rfl
@[simp] theorem setPc_status (t : Nat) : (setPc t s).status = s.status := rfl
@[simp] theorem setPc_config (t : Nat) : (setPc t s).config = s.config := rfl

@[simp] theorem jumpTo_regs (r : Fin 8) : (jumpTo r s).regs = s.regs := rfl
@[simp] theorem jumpTo_pc (r : Fin 8) : (jumpTo r s).pc = (readReg r s).toNat := rfl
@[simp] theorem jumpTo_fl (r : Fin 8) : (jumpTo r s).fl = s.fl := rfl
@[simp] theorem jumpTo_mem (r : Fin 8) : (jumpTo r s).mem = s.mem := rfl
@[simp] theorem jumpTo_out (r : Fin 8) : (jumpTo r s).out = s.out := rfl
@[simp] theorem jumpTo_diag (r : Fin 8) : (jumpTo r s).diag = s.diag := rfl
@[simp] theorem jumpTo_status (r : Fin 8) : (jumpTo r s).status = s.status := rfl
@[simp] theorem jumpTo_config (r : Fin 8) : (jumpTo r s).config = s.config := rfl

@[simp] theorem fallThrough_regs (m : Mnemonic) : (fallThrough m s).regs = s.regs := rfl
@[simp] theorem fallThrough_pc (m : Mnemonic) : (fallThrough m s).pc = s.pc + (fieldsOf m).operandCount + 1 := rfl
@[simp] theorem fallThrough_fl (m : Mnemonic) : (fallThrough m s).fl = s.fl := rfl
@[simp] theorem fallThrough_mem (m : Mnemonic) : (fallThrough m s).mem = s.mem := rfl
@[simp] theorem fallThrough_out (m : Mnemonic) : (fallThrough m s).out = s.out := rfl
@[simp] theorem fallThrough_diag (m : Mnemonic) : (fallThrough m s).diag = s.diag := rfl
@[simp] theorem fallThrough_status (m : Mnemonic) : (fallThrough m s).status = s.status := rfl
@[simp] theorem fallThrough_config (m : Mnemonic) : (fallThrough m s).config = s.config := rfl

@[simp] theorem raise_regs (c : Condition) : (raise c s).regs = s.regs := rfl
@[simp] theorem raise_pc (c : Condition) : (raise c s).pc = s.pc := rfl
@[simp] theorem raise_fl (c : Condition) : (raise c s).fl = s.fl := rfl
@[simp] theorem raise_mem (c : Condition) : (raise c s).mem = s.mem := rfl
@[simp] theorem raise_out (c : Condition) : (raise c s).out = s.out := rfl
@[simp] theorem raise_diag (c : Condition) : (raise c s).diag = s.diag := rfl
@[simp] theorem raise_status (c : Condition) : (raise c s).status = .faulted c := rfl
@[simp] theorem raise_config (c : Condition) : (raise c s).config = s.config := rfl

@[simp] theorem halt_regs : (halt s).regs = s.regs := rfl
@[simp] theorem halt_pc : (halt s).pc = s.pc := rfl
@[simp] theorem halt_fl : (halt s).fl = s.fl := rfl
@[simp] theorem halt_mem : (halt s).mem = s.mem := rfl
@[simp] theorem halt_out : (halt s).out = s.out := rfl
@[simp] theorem halt_diag : (halt s).diag = s.diag := rfl
@[simp] theorem halt_status : (halt s).status = .halted := rfl
@[simp] theorem halt_config : (halt s).config = s.config := rfl

@[simp] theorem appendOut_regs (v : Byte) : (appendOut v s).regs = s.regs := rfl
@[simp] theorem appendOut_pc (v : Byte) : (appendOut v s).pc = s.pc := rfl
@[simp] theorem appendOut_fl (v : Byte) : (appendOut v s).fl = s.fl := rfl
@[simp] theorem appendOut_mem (v : Byte) : (appendOut v s).mem = s.mem := rfl
@[simp] theorem appendOut_out (v : Byte) : (appendOut v s).out = s.out ++ [v] := rfl
@[simp] theorem appendOut_diag (v : Byte) : (appendOut v s).diag = s.diag := rfl
@[simp] theorem appendOut_status (v : Byte) : (appendOut v s).status = s.status := rfl
@[simp] theorem appendOut_config (v : Byte) : (appendOut v s).config = s.config := rfl

@[simp] theorem appendDiag_regs (v : Byte) : (appendDiag v s).regs = s.regs := rfl
@[simp] theorem appendDiag_pc (v : Byte) : (appendDiag v s).pc = s.pc := rfl
@[simp] theorem appendDiag_fl (v : Byte) : (appendDiag v s).fl = s.fl := rfl
@[simp] theorem appendDiag_mem (v : Byte) : (appendDiag v s).mem = s.mem := rfl
@[simp] theorem appendDiag_out (v : Byte) : (appendDiag v s).out = s.out := rfl
@[simp] theorem appendDiag_diag (v : Byte) : (appendDiag v s).diag = s.diag ++ [v] := rfl
@[simp] theorem appendDiag_status (v : Byte) : (appendDiag v s).status = s.status := rfl
@[simp] theorem appendDiag_config (v : Byte) : (appendDiag v s).config = s.config := rfl

@[simp] theorem setFlags_regs (fl : Byte) : (setFlags fl s).regs = s.regs := rfl
@[simp] theorem setFlags_pc (fl : Byte) : (setFlags fl s).pc = s.pc := rfl
@[simp] theorem setFlags_fl (fl : Byte) : (setFlags fl s).fl = fl := rfl
@[simp] theorem setFlags_mem (fl : Byte) : (setFlags fl s).mem = s.mem := rfl
@[simp] theorem setFlags_out (fl : Byte) : (setFlags fl s).out = s.out := rfl
@[simp] theorem setFlags_diag (fl : Byte) : (setFlags fl s).diag = s.diag := rfl
@[simp] theorem setFlags_status (fl : Byte) : (setFlags fl s).status = s.status := rfl
@[simp] theorem setFlags_config (fl : Byte) : (setFlags fl s).config = s.config := rfl

@[simp] theorem loadImage_regs (image : List Byte) : (loadImage image s).regs = s.regs := rfl
@[simp] theorem loadImage_pc (image : List Byte) : (loadImage image s).pc = s.pc := rfl
@[simp] theorem loadImage_fl (image : List Byte) : (loadImage image s).fl = s.fl := rfl
@[simp] theorem loadImage_mem (image : List Byte) : (loadImage image s).mem = storeBytes Config.loadBase image s.mem := rfl
@[simp] theorem loadImage_out (image : List Byte) : (loadImage image s).out = s.out := rfl
@[simp] theorem loadImage_diag (image : List Byte) : (loadImage image s).diag = s.diag := rfl
@[simp] theorem loadImage_status (image : List Byte) : (loadImage image s).status = s.status := rfl
@[simp] theorem loadImage_config (image : List Byte) : (loadImage image s).config = s.config := rfl

@[simp] theorem autoAdvance_regs (m : Mnemonic) : (autoAdvance m s).regs = s.regs := by
  unfold autoAdvance; split <;> rfl
@[simp] theorem autoAdvance_fl (m : Mnemonic) : (autoAdvance m s).fl = s.fl := by
  unfold autoAdvance; split <;> rfl
@[simp] theorem autoAdvance_mem (m : Mnemonic) : (autoAdvance m s).mem = s.mem := by
  unfold autoAdvance; split <;> rfl
@[simp] theorem autoAdvance_out (m : Mnemonic) : (autoAdvance m s).out = s.out := by
  unfold autoAdvance; split <;> rfl
@[simp] theorem autoAdvance_diag (m : Mnemonic) : (autoAdvance m s).diag = s.diag := by
  unfold autoAdvance; split <;> rfl
@[simp] theorem autoAdvance_status (m : Mnemonic) : (autoAdvance m s).status = s.status := by
  unfold autoAdvance; split <;> rfl
@[simp] theorem autoAdvance_config (m : Mnemonic) : (autoAdvance m s).config = s.config := by
  unfold autoAdvance; split <;> rfl

@[simp] theorem autoAdvance_pc (m : Mnemonic) : (autoAdvance m s).pc =
    if (fieldsOf m).setsPc = false ∧ s.status = .running then s.pc + (fieldsOf m).operandCount + 1 else s.pc := by
  unfold autoAdvance; split <;> rfl

/-- A register read after a register write, by comparing the two registers (10_state.md R20). -/
theorem readReg_writeReg (q r : Fin 8) (v : Int) :
    readReg q (writeReg r v s) = if q = r then truncate v else readReg q s := by
  simp only [readReg, writeReg_regs, Fin.getElem_fin, Vector.getElem_set, Fin.ext_iff]
  by_cases h : q.val = r.val
  · simp [h]
  · simp [h, Ne.symm h]

@[simp] theorem readReg_writeReg_same (r : Fin 8) (v : Int) : readReg r (writeReg r v s) = truncate v := by
  simp [readReg_writeReg]

theorem readReg_of_regs {s t : State} (h : t.regs = s.regs) (r : Fin 8) : readReg r t = readReg r s := by
  simp [readReg, h]

/-- A register write of a byte's own value stores that byte (10_state.md R22). -/
@[simp] theorem truncate_toNat (v : Byte) : truncate (v.toNat : Int) = v := by
  simp [truncate]

/-- A register write stores the value modulo 256 (10_state.md R22). -/
theorem truncate_natCast (n : Nat) : truncate (n : Int) = BitVec.ofNat 8 (n % 256) := by
  apply BitVec.eq_of_toNat_eq
  simp [truncate]

end Sys2Proof.Machine
end

