-- ==== Sys2Proof/Laws/Ops.lean ====
section
/-! SUPPORT. One lemma per shared operation saying everything it can answer. -/

namespace Sys2Proof.Machine

/-! ### Sequencing of operations that can raise -/

@[simp] theorem ok_bind {α β : Type} (x : α) (f : α → Except Condition β) : ((Except.ok x : Except Condition α) >>= f) = f x :=
  rfl

@[simp] theorem error_bind {α β : Type} (c : Condition) (f : α → Except Condition β) :
    ((Except.error c : Except Condition α) >>= f) = .error c := rfl

@[simp] theorem pure_eq_ok {α : Type} (x : α) : (pure x : Except Condition α) = .ok x := rfl

/-- A sequence completes exactly when its first part does and its rest does from there. -/
theorem bind_eq_ok {α β : Type} {x : Except Condition α} {f : α → Except Condition β} {y : β} :
    x >>= f = .ok y ↔ ∃ a, x = .ok a ∧ f a = .ok y := by
  cases x <;> simp

/-- A sequence raises exactly when its first part raises or its rest does from there. -/
theorem bind_eq_error {α β : Type} {x : Except Condition α} {f : α → Except Condition β} {c : Condition} :
    x >>= f = .error c ↔ x = .error c ∨ ∃ a, x = .ok a ∧ f a = .error c := by
  cases x <;> simp

/-! ### Operand checks (10_state.md R21, 43_stack.md R153) -/

theorem checkReg_eq_ok {i : Byte} {r : Fin 8} : checkReg i = .ok r ↔ i.toNat = r.val := by
  unfold checkReg
  split
  · next h => simp [Fin.ext_iff]
  · next h => simp; omega

theorem checkReg_eq_error {i : Byte} {c : Condition} :
    checkReg i = .error c ↔ 8 ≤ i.toNat ∧ c = .outOfBounds .reg i.toNat := by
  unfold checkReg
  split
  · next h => simp; omega
  · next h => simp only [Except.error.injEq]; constructor
              · rintro rfl; exact ⟨by omega, rfl⟩
              · rintro ⟨-, rfl⟩; rfl

theorem checkReg_of_eq {i : Byte} {r : Fin 8} (h : i.toNat = r.val) : checkReg i = .ok r := checkReg_eq_ok.mpr h

theorem checkReg_of_ge {i : Byte} (h : 8 ≤ i.toNat) : checkReg i = .error (.outOfBounds .reg i.toNat) :=
  checkReg_eq_error.mpr ⟨h, rfl⟩

theorem checkUnderflow_eq_ok {s : State} {u : Unit} :
    checkUnderflow s = .ok u ↔ (s.config.underflowCheck = true → (sp s).toNat < 0xF4) := by
  unfold checkUnderflow
  have hSp : Config.spInit.toNat = 0xF4 := rfl
  rw [hSp]
  split
  · next h => simp; omega
  · next h => simp only [true_iff]; intro hc; by_contra hlt; exact h ⟨hc, by omega⟩

theorem checkUnderflow_eq_error {s : State} {c : Condition} :
    checkUnderflow s = .error c ↔
      s.config.underflowCheck = true ∧ 0xF4 ≤ (sp s).toNat ∧ c = .outOfBounds .stack (sp s).toNat := by
  unfold checkUnderflow
  have hSp : Config.spInit.toNat = 0xF4 := rfl
  rw [hSp]
  split
  · next h => simp only [Except.error.injEq, h.1, h.2, true_and]; exact eq_comm
  · next h => simp only [reduceCtorEq, false_iff]; rintro ⟨h1, h2, -⟩; exact h ⟨h1, h2⟩

/-! ### Memory accesses (20_memory.md R41, R42) -/

theorem memRead_eq_ok {a : Nat} {s : State} {v : Byte} :
    memRead a s = .ok v ↔ a < 256 ∧ v = readCell s.mem a := by
  unfold memRead Config.memSize
  split <;> simp_all [eq_comm]

theorem memRead_eq_error {a : Nat} {s : State} {c : Condition} :
    memRead a s = .error c ↔ 256 ≤ a ∧ c = .outOfBounds .mem a := by
  unfold memRead Config.memSize
  split
  · simp; omega
  · simp [eq_comm]; omega

theorem memWrite_eq_ok {a : Nat} {v : Byte} {s t : State} :
    memWrite a v s = .ok t ↔ a < 256 ∧ t = { s with mem := writeCell s.mem a v } := by
  unfold memWrite Config.memSize
  split <;> simp_all [eq_comm]

theorem memWrite_eq_error {a : Nat} {v : Byte} {s : State} {c : Condition} :
    memWrite a v s = .error c ↔ 256 ≤ a ∧ c = .outOfBounds .mem a := by
  unfold memWrite Config.memSize
  split
  · simp; omega
  · simp [eq_comm]; omega

/-- An address from a register is always in range (20_memory.md R42). -/
@[simp] theorem memRead_byte (v : Byte) (s : State) : memRead v.toNat s = .ok (readCell s.mem v.toNat) :=
  memRead_eq_ok.mpr ⟨v.isLt, rfl⟩

@[simp] theorem memWrite_byte (a v : Byte) (s : State) :
    memWrite a.toNat v s = .ok { s with mem := writeCell s.mem a.toNat v } :=
  memWrite_eq_ok.mpr ⟨a.isLt, rfl⟩

@[simp] theorem readTop_eq (s : State) : readTop s = .ok (readCell s.mem (sp s).toNat) := memRead_byte _ _

@[simp] theorem writeTop_eq (v : Byte) (s : State) :
    writeTop v s = .ok { s with mem := writeCell s.mem (sp s).toNat v } := memWrite_byte _ _ _

/-! ### SP moves (43_stack.md R150) -/

@[simp] theorem sp_writeReg_sp (s : State) (v : Int) : sp (writeReg spIndex v s) = truncate v :=
  readReg_writeReg_same s spIndex v

@[simp] theorem sp_decSp (s : State) : sp (decSp s) = truncate ((sp s).toNat - 1) := readReg_writeReg_same s spIndex _

@[simp] theorem sp_incSp (s : State) : sp (incSp s) = truncate ((sp s).toNat + 1) := readReg_writeReg_same s spIndex _

/-- SP moved down is SP minus one modulo 256. -/
theorem truncate_pred (v : Byte) : truncate ((v.toNat : Int) - 1) = v - 1#8 := by
  revert v; decide

/-- SP moved up is SP plus one modulo 256. -/
theorem truncate_succ (v : Byte) : truncate ((v.toNat : Int) + 1) = v + 1#8 := by
  revert v; decide

end Sys2Proof.Machine
end

