-- ==== Sys2Proof/Laws/Handlers.lean ====
section
/-! SUPPORT. One lemma per shared handler saying everything it can answer when it completes, and one for the end of a
cycle. -/

namespace Sys2Proof.Machine

theorem aluBinary_eq_ok {f : Byte → Byte → Int} {a b : Byte} {s t : State} : aluBinary f a b s = .ok t ↔
    ∃ ra rb : Fin 8, a.toNat = ra.val ∧ b.toNat = rb.val ∧ t = writeReg ra (f (readReg ra s) (readReg rb s)) s := by
  simp only [aluBinary, bind_eq_ok, checkReg_eq_ok, pure_eq_ok, Except.ok.injEq]
  constructor
  · rintro ⟨ra, ha, rb, hb, rfl⟩; exact ⟨ra, rb, ha, hb, rfl⟩
  · rintro ⟨ra, rb, ha, hb, rfl⟩; exact ⟨ra, ha, rb, hb, rfl⟩

theorem aluUnary_eq_ok {f : Byte → Int} {a : Byte} {s t : State} : aluUnary f a s = .ok t ↔
    ∃ ra : Fin 8, a.toNat = ra.val ∧ t = writeReg ra (f (readReg ra s)) s := by
  simp only [aluUnary, bind_eq_ok, checkReg_eq_ok, pure_eq_ok, Except.ok.injEq, eq_comm (b := t)]

theorem aluCompare_eq_ok {a b : Byte} {s t : State} : aluCompare a b s = .ok t ↔
    ∃ ra rb : Fin 8, a.toNat = ra.val ∧ b.toNat = rb.val ∧
      t = setFlags (compareFlags (readReg ra s) (readReg rb s)) s := by
  simp only [aluCompare, bind_eq_ok, checkReg_eq_ok, pure_eq_ok, Except.ok.injEq]
  constructor
  · rintro ⟨ra, ha, rb, hb, rfl⟩; exact ⟨ra, rb, ha, hb, rfl⟩
  · rintro ⟨ra, rb, ha, hb, rfl⟩; exact ⟨ra, ha, rb, hb, rfl⟩

theorem loadImmediate_eq_ok {a imm : Byte} {s t : State} : loadImmediate a imm s = .ok t ↔
    ∃ ra : Fin 8, a.toNat = ra.val ∧ t = writeReg ra imm.toNat s := by
  simp only [loadImmediate, bind_eq_ok, checkReg_eq_ok, pure_eq_ok, Except.ok.injEq, eq_comm (b := t)]

theorem loadIndirect_eq_ok {a b : Byte} {s t : State} : loadIndirect a b s = .ok t ↔
    ∃ ra rb : Fin 8, a.toNat = ra.val ∧ b.toNat = rb.val ∧
      t = writeReg ra (readCell s.mem (readReg rb s).toNat).toNat s := by
  simp only [loadIndirect, bind_eq_ok, checkReg_eq_ok, pure_eq_ok, memRead_byte, ok_bind, Except.ok.injEq]
  constructor
  · rintro ⟨ra, ha, rb, hb, rfl⟩; exact ⟨ra, rb, ha, hb, rfl⟩
  · rintro ⟨ra, rb, ha, hb, rfl⟩; exact ⟨ra, ha, rb, hb, rfl⟩

theorem printNumber_eq_ok {a : Byte} {s t : State} : printNumber a s = .ok t ↔
    ∃ ra : Fin 8, a.toNat = ra.val ∧ t = appendDiag (readReg ra s) s := by
  simp only [printNumber, bind_eq_ok, checkReg_eq_ok, pure_eq_ok, Except.ok.injEq, eq_comm (b := t)]

theorem printChar_eq_ok {a : Byte} {s t : State} : printChar a s = .ok t ↔
    ∃ ra : Fin 8, a.toNat = ra.val ∧ t = appendOut (readReg ra s) s := by
  simp only [printChar, bind_eq_ok, checkReg_eq_ok, pure_eq_ok, Except.ok.injEq, eq_comm (b := t)]

theorem pushReg_eq_ok {a : Byte} {s t : State} : pushReg a s = .ok t ↔
    ∃ ra : Fin 8, a.toNat = ra.val ∧
      t = { decSp s with mem := writeCell s.mem (sp (decSp s)).toNat (readReg ra (decSp s)) } := by
  simp only [pushReg, bind_eq_ok, checkReg_eq_ok, writeTop_eq, decSp_mem, Except.ok.injEq, eq_comm (b := t)]

theorem popReg_eq_ok {a : Byte} {s t : State} : popReg a s = .ok t ↔
    (s.config.underflowCheck = true → (sp s).toNat < 0xF4) ∧ ∃ ra : Fin 8, a.toNat = ra.val ∧
      t = incSp (writeReg ra (readCell s.mem (sp s).toNat).toNat s) := by
  simp only [popReg, bind_eq_ok, checkReg_eq_ok, pure_eq_ok, readTop_eq, ok_bind, Except.ok.injEq]
  constructor
  · rintro ⟨ra, ha, u, hu, rfl⟩; exact ⟨checkUnderflow_eq_ok.mp hu, ra, ha, rfl⟩
  · rintro ⟨hu, ra, ha, rfl⟩; exact ⟨ra, ha, (), checkUnderflow_eq_ok.mpr hu, rfl⟩

theorem returnAddress_eq_ok {s : State} {v : Byte} : returnAddress s = .ok v ↔
    s.pc + 2 < 256 ∧ v = BitVec.ofNat 8 (s.pc + 2) := by
  unfold returnAddress Config.memSize
  split <;> simp_all [eq_comm]

theorem returnAddress_eq_error {s : State} {c : Condition} : returnAddress s = .error c ↔
    256 ≤ s.pc + 2 ∧ c = .outOfBounds .mem (s.pc + 2) := by
  unfold returnAddress Config.memSize
  split
  · simp; omega
  · simp [eq_comm]; omega

theorem callReg_eq_ok {a : Byte} {s t : State} : callReg a s = .ok t ↔
    s.pc + 2 < 256 ∧ ∃ ra : Fin 8, a.toNat = ra.val ∧
      t = { decSp s with
            mem := writeCell s.mem (sp (decSp s)).toNat (BitVec.ofNat 8 (s.pc + 2))
            pc := (readReg ra (decSp s)).toNat } := by
  simp only [callReg, bind_eq_ok, checkReg_eq_ok, pure_eq_ok, writeTop_eq, ok_bind, Except.ok.injEq,
    returnAddress_eq_ok]
  constructor
  · rintro ⟨ra, ha, v, ⟨hpc, rfl⟩, rfl⟩; exact ⟨hpc, ra, ha, rfl⟩
  · rintro ⟨hpc, ra, ha, rfl⟩; exact ⟨ra, ha, _, ⟨hpc, rfl⟩, rfl⟩

theorem returnToTop_eq_ok {s t : State} : returnToTop s = .ok t ↔
    (s.config.underflowCheck = true → (sp s).toNat < 0xF4) ∧
      t = incSp (setPc (readCell s.mem (sp s).toNat).toNat s) := by
  simp only [returnToTop, bind_eq_ok, pure_eq_ok, readTop_eq, ok_bind, Except.ok.injEq]
  constructor
  · rintro ⟨u, hu, rfl⟩; exact ⟨checkUnderflow_eq_ok.mp hu, rfl⟩
  · rintro ⟨hu, rfl⟩; exact ⟨(), checkUnderflow_eq_ok.mpr hu, rfl⟩

theorem jumpReg_eq_ok {a : Byte} {s t : State} : jumpReg a s = .ok t ↔
    ∃ ra : Fin 8, a.toNat = ra.val ∧ t = jumpTo ra s := by
  simp only [jumpReg, bind_eq_ok, checkReg_eq_ok, pure_eq_ok, Except.ok.injEq, eq_comm (b := t)]

theorem jumpIf_eq_ok {m : Mnemonic} {taken : Bool} {a : Byte} {s t : State} : jumpIf m taken a s = .ok t ↔
    (taken = true ∧ ∃ ra : Fin 8, a.toNat = ra.val ∧ t = jumpTo ra s) ∨ (taken = false ∧ t = fallThrough m s) := by
  cases taken
  · simp [jumpIf, eq_comm]
  · simp [jumpIf, jumpReg_eq_ok]

/-- Everything the end of a cycle can answer: the completed handler's state advanced, or the state before the step
with a condition raised. It never faults and never refuses. -/
theorem endCycle_eq_next {m : Mnemonic} {s t : State} {h : Except Condition State} : endCycle m s h = .next t ↔
    (∃ u, h = .ok u ∧ t = autoAdvance m u) ∨ (∃ c, h = .error c ∧ t = raise c s) := by
  cases h <;> simp [endCycle, eq_comm]

theorem endCycle_is_next (m : Mnemonic) (s : State) (h : Except Condition State) : ∃ t, endCycle m s h = .next t := by
  cases h
  · exact ⟨_, rfl⟩
  · exact ⟨_, rfl⟩

end Sys2Proof.Machine
end

