-- ==== Sys2Proof/Laws/Memory.lean ====
section
/-! SUPPORT. The laws of memory as data: reads after writes, and the canonical form kept by every operation. -/

namespace Sys2Proof.Machine

/-! ### Reads -/

theorem readCell_eraseCell_same (m : Memory) (a : Nat) : readCell (eraseCell m a) a = unwritten := by
  induction m with
  | nil => rfl
  | cons c rest ih =>
    by_cases h : c.1 = a
    · simpa [eraseCell, h] using ih
    · simpa [eraseCell, h, readCell] using ih

theorem readCell_eraseCell_other (m : Memory) {a b : Nat} (hab : b ≠ a) :
    readCell (eraseCell m a) b = readCell m b := by
  induction m with
  | nil => rfl
  | cons c rest ih =>
    by_cases h : c.1 = a
    · simpa [eraseCell, h, readCell, Ne.symm hab] using ih
    · by_cases hb : c.1 = b <;> simp_all [eraseCell, readCell]

theorem readCell_insertCell_other (m : Memory) {a b : Nat} (v : Byte) (hab : b ≠ a) :
    readCell (insertCell m a v) b = readCell m b := by
  induction m with
  | nil => simp [insertCell, readCell, Ne.symm hab]
  | cons c rest ih =>
    by_cases h : a < c.1
    · simp [insertCell, h, readCell, Ne.symm hab]
    · simp [insertCell, h, readCell, ih]

/-- An insertion is read back where the list holds no entry of that address yet. -/
theorem readCell_insertCell_same (m : Memory) (a : Nat) (v : Byte) (fresh : ∀ c ∈ m, c.1 ≠ a) :
    readCell (insertCell m a v) a = v := by
  induction m with
  | nil => simp [insertCell, readCell]
  | cons c rest ih =>
    have hc : c.1 ≠ a := fresh c (by simp)
    by_cases h : a < c.1
    · simp [insertCell, h, readCell]
    · simpa [insertCell, h, readCell, hc] using ih fun d hd => fresh d (by simp [hd])

theorem eraseCell_fresh (m : Memory) (a : Nat) : ∀ c ∈ eraseCell m a, c.1 ≠ a := by
  intro c hc
  simpa [eraseCell] using (List.mem_filter.mp hc).2

/-- A read after a write to the same address gives the byte written (20_memory.md R48). -/
@[simp] theorem readCell_writeCell_same (m : Memory) (a : Nat) (v : Byte) : readCell (writeCell m a v) a = v := by
  unfold writeCell
  split
  · next h => rw [readCell_eraseCell_same, h]
  · exact readCell_insertCell_same _ a v (eraseCell_fresh m a)

/-- A write leaves every other address alone (20_memory.md R48). -/
theorem readCell_writeCell_other (m : Memory) {a b : Nat} (v : Byte) (hab : b ≠ a) :
    readCell (writeCell m a v) b = readCell m b := by
  unfold writeCell
  split
  · exact readCell_eraseCell_other m hab
  · rw [readCell_insertCell_other _ v hab, readCell_eraseCell_other m hab]

/-- A read after a write, by comparing the two addresses. -/
theorem readCell_writeCell (m : Memory) (a b : Nat) (v : Byte) :
    readCell (writeCell m a v) b = if b = a then v else readCell m b := by
  split
  · next h => subst h; simp
  · next h => exact readCell_writeCell_other m v h

/-- The loader's stores, read back: the bytes stored at their addresses, every other address as before
(70_reset_and_hazards.md R231). -/
theorem readCell_storeBytes (bytes : List Byte) (a b : Nat) (m : Memory) (h : a + bytes.length ≤ 256) :
    readCell (storeBytes a bytes m) b =
      if a ≤ b ∧ b < a + bytes.length then bytes.getD (b - a) unwritten else readCell m b := by
  induction bytes generalizing a m with
  | nil =>
    have : ¬ (a ≤ b ∧ b < a + ([] : List Byte).length) := by simp
    rw [if_neg this]; rfl
  | cons v rest ih =>
    simp only [List.length_cons] at h ⊢
    have ha : a < Config.memSize := by simp only [Config.memSize]; omega
    simp only [storeBytes, if_pos ha]
    rw [ih (a + 1) _ (by omega), readCell_writeCell]
    by_cases hab : b = a
    · subst hab
      rw [if_neg (by omega), if_pos rfl, if_pos (by omega)]
      simp
    · by_cases h1 : a + 1 ≤ b ∧ b < a + 1 + rest.length
      · have hb : b - a = (b - (a + 1)) + 1 := by omega
        rw [if_pos h1, if_pos (by omega), hb]
        simp
      · rw [if_neg h1, if_neg hab, if_neg (by omega)]

/-! ### The canonical form -/

theorem wfFrom_mono {lo lo' : Nat} (h : lo ≤ lo') {m : Memory} (hm : wfFrom lo' m = true) : wfFrom lo m = true := by
  cases m with
  | nil => rfl
  | cons c rest =>
    simp only [wfFrom, Bool.and_eq_true, decide_eq_true_eq] at hm ⊢
    exact ⟨⟨⟨by omega, hm.1.1.2⟩, hm.1.2⟩, hm.2⟩

theorem wfFrom_eraseCell {lo : Nat} {m : Memory} (a : Nat) (hm : wfFrom lo m = true) :
    wfFrom lo (eraseCell m a) = true := by
  induction m generalizing lo with
  | nil => rfl
  | cons c rest ih =>
    simp only [wfFrom, Bool.and_eq_true, decide_eq_true_eq] at hm
    by_cases h : c.1 = a
    · have := wfFrom_mono (lo := lo) (by omega) (ih hm.2)
      simpa [eraseCell, h] using this
    · have := ih hm.2
      simp only [eraseCell] at this ⊢
      simp only [List.filter_cons, bne_iff_ne, ne_eq, h, not_false_eq_true, if_true, wfFrom, Bool.and_eq_true,
        decide_eq_true_eq]
      exact ⟨hm.1, this⟩

theorem wfFrom_insertCell {lo a : Nat} {m : Memory} {v : Byte} (hm : wfFrom lo m = true) (fresh : ∀ c ∈ m, c.1 ≠ a)
    (hlo : lo ≤ a) (ha : a < Config.memSize) (hv : v ≠ unwritten) : wfFrom lo (insertCell m a v) = true := by
  induction m generalizing lo with
  | nil => simp [insertCell, wfFrom, hlo, ha, hv]
  | cons c rest ih =>
    have hne : c.1 ≠ a := fresh c (by simp)
    simp only [wfFrom, Bool.and_eq_true, decide_eq_true_eq] at hm
    by_cases h : a < c.1
    · simp only [insertCell, h, if_true, wfFrom, Bool.and_eq_true, decide_eq_true_eq]
      exact ⟨⟨⟨hlo, ha⟩, hv⟩, ⟨⟨by omega, hm.1.1.2⟩, hm.1.2⟩, hm.2⟩
    · have := ih hm.2 (fun d hd => fresh d (by simp [hd])) (by omega)
      simp only [insertCell, h, if_false, wfFrom, Bool.and_eq_true, decide_eq_true_eq]
      exact ⟨hm.1, this⟩

/-- A store inside the address space keeps the canonical form. -/
theorem Memory.wf_writeCell {m : Memory} {a : Nat} (v : Byte) (hm : Memory.wf m = true) (ha : a < Config.memSize) :
    Memory.wf (writeCell m a v) = true := by
  unfold writeCell
  split
  · exact wfFrom_eraseCell a hm
  · next hv => exact wfFrom_insertCell (wfFrom_eraseCell a hm) (eraseCell_fresh m a) (Nat.zero_le a) ha hv

/-- The loader's stores keep the canonical form. -/
theorem Memory.wf_storeBytes {m : Memory} (a : Nat) (bytes : List Byte) (hm : Memory.wf m = true) :
    Memory.wf (storeBytes a bytes m) = true := by
  induction bytes generalizing a m with
  | nil => exact hm
  | cons v rest ih =>
    simp only [storeBytes]
    split
    · next ha => exact ih _ (Memory.wf_writeCell v hm ha)
    · exact ih _ hm

theorem readCell_of_lt {lo a : Nat} {m : Memory} (hm : wfFrom lo m = true) (ha : a < lo) : readCell m a = unwritten := by
  induction m generalizing lo with
  | nil => rfl
  | cons c rest ih =>
    simp only [wfFrom, Bool.and_eq_true, decide_eq_true_eq] at hm
    have hc : c.1 ≠ a := by omega
    simpa [readCell, hc] using ih hm.2 (by omega)

/-- Two memories in the canonical form that read alike at every address are equal data. -/
theorem wfFrom_ext {lo : Nat} {m n : Memory} (hm : wfFrom lo m = true) (hn : wfFrom lo n = true)
    (h : ∀ a, readCell m a = readCell n a) : m = n := by
  induction m generalizing lo n with
  | nil =>
    cases n with
    | nil => rfl
    | cons d n =>
      simp only [wfFrom, Bool.and_eq_true, decide_eq_true_eq] at hn
      exact absurd (by simpa [readCell] using (h d.1).symm) hn.1.2
  | cons c m ih =>
    have hm' := hm
    simp only [wfFrom, Bool.and_eq_true, decide_eq_true_eq] at hm
    cases n with
    | nil => exact absurd (by simpa [readCell] using h c.1) hm.1.2
    | cons d n =>
      have hn' := hn
      simp only [wfFrom, Bool.and_eq_true, decide_eq_true_eq] at hn
      have key : c.1 = d.1 := by
        rcases Nat.lt_trichotomy c.1 d.1 with hlt | heq | hgt
        · have h1 := h c.1
          have h2 : d.1 ≠ c.1 := by omega
          simp only [readCell, if_true, h2, if_false] at h1
          exact absurd (h1.trans (readCell_of_lt hn.2 (by omega))) hm.1.2
        · exact heq
        · have h1 := h d.1
          have h2 : c.1 ≠ d.1 := by omega
          simp only [readCell, if_true, h2, if_false] at h1
          exact absurd (h1.symm.trans (readCell_of_lt hm.2 (by omega))) hn.1.2
      have hv : c.2 = d.2 := by simpa [readCell, key] using h c.1
      have hcd : c = d := Prod.ext key hv
      subst hcd
      refine congrArg (c :: ·) (ih hm.2 hn.2 fun a => ?_)
      by_cases ha : a < c.1 + 1
      · rw [readCell_of_lt hm.2 ha, readCell_of_lt hn.2 ha]
      · have hne : c.1 ≠ a := by omega
        simpa [readCell, hne] using h a

theorem Memory.wf_ext {m n : Memory} (hm : Memory.wf m = true) (hn : Memory.wf n = true)
    (h : ∀ a, readCell m a = readCell n a) : m = n := wfFrom_ext hm hn h

end Sys2Proof.Machine
end

