-- ==== Sys2Proof/Laws/PerInstr.lean ====
section
/-! SUPPORT. A statement about every instruction as syntax, one lemma per constructor: the bytes of an instruction are
its opcode and as many operand bytes as the opcode's operand count, at most three in all (30_encoding.md R60, R66). -/

namespace Sys2Proof.Laws.EncodedLength

/-- The instruction is encoded in 1 + n bytes, n the operand count in bits 7..6 of its opcode byte, and n is at most 2
(30_encoding.md R60, R61). -/
def Statement (i : Instr) : Prop :=
  (encode i).length = 1 + (decodeFields (opcodeByte i.mnemonic)).operandCount ∧
    (decodeFields (opcodeByte i.mnemonic)).operandCount ≤ 2

theorem of_count {i : Instr} (h : i.operands.length ≤ 2) : Statement i := by
  unfold Statement
  rw [operandCount_opcodeByte]
  exact ⟨by simp [encode, Nat.add_comm], h⟩

theorem nop : Statement .nop := of_count (by simp [Instr.operands])
theorem hlt : Statement .hlt := of_count (by simp [Instr.operands])
theorem ret : Statement .ret := of_count (by simp [Instr.operands])
theorem pra (a : Byte) : Statement (.pra a) := of_count (by simp [Instr.operands])
theorem push (a : Byte) : Statement (.push a) := of_count (by simp [Instr.operands])
theorem pop (a : Byte) : Statement (.pop a) := of_count (by simp [Instr.operands])
theorem prn (a : Byte) : Statement (.prn a) := of_count (by simp [Instr.operands])
theorem call (a : Byte) : Statement (.call a) := of_count (by simp [Instr.operands])
theorem jmp (a : Byte) : Statement (.jmp a) := of_count (by simp [Instr.operands])
theorem jeq (a : Byte) : Statement (.jeq a) := of_count (by simp [Instr.operands])
theorem jne (a : Byte) : Statement (.jne a) := of_count (by simp [Instr.operands])
theorem inc (a : Byte) : Statement (.inc a) := of_count (by simp [Instr.operands])
theorem dec (a : Byte) : Statement (.dec a) := of_count (by simp [Instr.operands])
theorem not (a : Byte) : Statement (.not a) := of_count (by simp [Instr.operands])
theorem ldi (a imm : Byte) : Statement (.ldi a imm) := of_count (by simp [Instr.operands])
theorem ld (a b : Byte) : Statement (.ld a b) := of_count (by simp [Instr.operands])
theorem add (a b : Byte) : Statement (.add a b) := of_count (by simp [Instr.operands])
theorem mul (a b : Byte) : Statement (.mul a b) := of_count (by simp [Instr.operands])
theorem cmp (a b : Byte) : Statement (.cmp a b) := of_count (by simp [Instr.operands])
theorem and (a b : Byte) : Statement (.and a b) := of_count (by simp [Instr.operands])
theorem xor (a b : Byte) : Statement (.xor a b) := of_count (by simp [Instr.operands])

end Sys2Proof.Laws.EncodedLength
end

