-- ==== Sys2Proof/Laws/Step.lean ====
section
/-! SUPPORT. What executing an instruction, and a whole step, can answer. -/

namespace Sys2Proof.Machine

/-- The handler behind an instruction's meaning, named once for the case split over instructions. -/
def handlerOf (i : Instr) (s : State) : Except Condition State :=
  match i with
  | .nop => .ok s
  | .hlt => .ok (halt s)
  | .ret => returnToTop s
  | .pra a => printChar a s
  | .push a => pushReg a s
  | .pop a => popReg a s
  | .prn a => printNumber a s
  | .call a => callReg a s
  | .jmp a => jumpReg a s
  | .jeq a => jumpIf .jeq (flagE s.fl) a s
  | .jne a => jumpIf .jne (!flagE s.fl) a s
  | .inc a => aluUnary (fun x => (x.toNat : Int) + 1) a s
  | .dec a => aluUnary (fun x => (x.toNat : Int) - 1) a s
  | .not a => aluUnary (fun x => 255 - (x.toNat : Int)) a s
  | .ldi a imm => loadImmediate a imm s
  | .ld a b => loadIndirect a b s
  | .add a b => aluBinary (fun x y => (x.toNat : Int) + y.toNat) a b s
  | .mul a b => aluBinary (fun x y => (x.toNat : Int) * y.toNat) a b s
  | .cmp a b => aluCompare a b s
  | .and a b => aluBinary (fun x y => ((x &&& y).toNat : Int)) a b s
  | .xor a b => aluBinary (fun x y => ((x ^^^ y).toNat : Int)) a b s

/-- Every instruction is its handler with the end of the cycle. -/
theorem exec_eq_endCycle (i : Instr) (s : State) : exec i s = endCycle i.mnemonic s (handlerOf i s) := by
  cases i <;> rfl

/-- Executing an instruction always gives a next state. -/
theorem exec_is_next (i : Instr) (s : State) : ∃ t, exec i s = .next t := by
  rw [exec_eq_endCycle]; exact endCycle_is_next _ _ _

/-- Everything executing an instruction can answer. -/
theorem exec_cases {i : Instr} {s t : State} (h : exec i s = .next t) :
    (∃ u, handlerOf i s = .ok u ∧ t = autoAdvance i.mnemonic u) ∨ (∃ c, handlerOf i s = .error c ∧ t = raise c s) :=
  endCycle_eq_next.mp (exec_eq_endCycle i s ▸ h)

/-- Everything a step can answer when it answers a next state. -/
theorem step_cases {s t : State} (h : step s = .next t) : s.status = .running ∧
    ((∃ i, fetch s = .ok i ∧ exec i s = .next t) ∨ (∃ c, fetch s = .error c ∧ t = raise c s)) := by
  unfold step at h
  split at h
  · cases h
  · cases h
  · next hs =>
    refine ⟨hs, ?_⟩
    split at h
    · next i hi => exact .inl ⟨i, hi, h⟩
    · next c hc => exact .inr ⟨c, hc, by cases h; rfl⟩

/-- A running machine always makes a step. -/
theorem step_is_next {s : State} (h : s.status = .running) : ∃ t, step s = .next t := by
  unfold step
  simp only [h]
  split
  · exact exec_is_next _ _
  · exact ⟨_, rfl⟩

/-- Everything an operand fetch can answer (40_execution_cycle.md R85). -/
theorem fetchOperand_eq_ok {n k : Nat} {s : State} {v : Byte} : fetchOperand n k s = .ok v ↔
    (k ≤ n ∧ s.pc + k < 256 ∧ v = readCell s.mem (s.pc + k)) ∨ (n < k ∧ v = 0x00#8) := by
  unfold fetchOperand
  split
  · next h => rw [memRead_eq_ok]; constructor
              · intro hv; exact .inl ⟨h, hv⟩
              · rintro (⟨-, hv⟩ | ⟨hlt, -⟩)
                · exact hv
                · omega
  · next h => constructor
              · intro hv; exact .inr ⟨by omega, (Except.ok.inj hv).symm⟩
              · rintro (⟨hle, -⟩ | ⟨-, rfl⟩)
                · omega
                · rfl

theorem fetchOperand_eq_error {n k : Nat} {s : State} {c : Condition} : fetchOperand n k s = .error c ↔
    k ≤ n ∧ 256 ≤ s.pc + k ∧ c = .outOfBounds .mem (s.pc + k) := by
  unfold fetchOperand
  split
  · next h => rw [memRead_eq_error]; simp [h]
  · next h => simp [h]

/-- Everything classification at pc can answer when it accepts. -/
theorem classifyAt_eq_ok {op : Byte} {s : State} {m : Mnemonic} : classifyAt op s = .ok m ↔ op = opcodeByte m := by
  unfold classifyAt
  split
  · next m' h => rw [classify_eq_ok] at h; subst h; constructor
                 · intro h; cases h; rfl
                 · intro h
                   have := congrArg mnemonicOf h
                   simpa using this
  · next e h => constructor
                · intro h; cases h
                · rintro rfl; simp at h

/-- Everything classification at pc can answer when it rejects (40_execution_cycle.md R83, R84). -/
theorem classifyAt_eq_error {op : Byte} {s : State} {c : Condition} : classifyAt op s = .error c ↔
    mnemonicOf op = none ∧
      c = if (decodeFields op).isAlu then .unsupportedOperation op s.pc else .invalidOpcode op s.pc := by
  unfold classifyAt
  split
  · next m h => rw [classify_eq_ok] at h; subst h; simp
  · next e h =>
    rw [classify_eq_error] at h
    obtain ⟨hm, rfl⟩ := h
    simp only [Except.error.injEq, hm, true_and]
    split <;> exact eq_comm

/-- Everything the fetch can answer when it gives an instruction. -/
theorem fetch_eq_ok {s : State} {i : Instr} : fetch s = .ok i ↔
    s.pc < 256 ∧ ∃ m a b, readCell s.mem s.pc = opcodeByte m ∧
      fetchOperand (fieldsOf m).operandCount 1 s = .ok a ∧ fetchOperand (fieldsOf m).operandCount 2 s = .ok b ∧
      i = build m a b := by
  simp only [fetch, bind_eq_ok, memRead_eq_ok, classifyAt_eq_ok, pure_eq_ok, Except.ok.injEq]
  constructor
  · rintro ⟨op, ⟨hpc, rfl⟩, m, hm, a, ha, b, hb, rfl⟩
    refine ⟨hpc, m, a, b, hm, ?_, ?_, rfl⟩ <;> simpa [fieldsOf, ← hm]
  · rintro ⟨hpc, m, a, b, hm, ha, hb, rfl⟩
    refine ⟨_, ⟨hpc, rfl⟩, m, hm, a, ?_, b, ?_, rfl⟩ <;> rw [hm] <;> assumption

/-- Everything the fetch can answer when it raises, in the order of 40_execution_cycle.md R91. -/
theorem fetch_error_cases {s : State} {c : Condition} (h : fetch s = .error c) :
    (256 ≤ s.pc ∧ c = .outOfBounds .mem s.pc) ∨
    (s.pc < 256 ∧ mnemonicOf (readCell s.mem s.pc) = none ∧
      c = if (decodeFields (readCell s.mem s.pc)).isAlu then .unsupportedOperation (readCell s.mem s.pc) s.pc
          else .invalidOpcode (readCell s.mem s.pc) s.pc) ∨
    (s.pc < 256 ∧ ∃ m k, readCell s.mem s.pc = opcodeByte m ∧ k ≤ (fieldsOf m).operandCount ∧
      256 ≤ s.pc + k ∧ c = .outOfBounds .mem (s.pc + k)) := by
  simp only [fetch, bind_eq_error, memRead_eq_error, memRead_eq_ok, classifyAt_eq_error, classifyAt_eq_ok,
    fetchOperand_eq_error, pure_eq_ok] at h
  rcases h with h | ⟨op, ⟨hpc, rfl⟩, h⟩
  · exact .inl h
  · rcases h with h | ⟨m, hm, h⟩
    · exact .inr (.inl ⟨hpc, h⟩)
    · refine .inr (.inr ⟨hpc, m, ?_⟩)
      rcases h with h | ⟨a, ha, h⟩
      · exact ⟨1, hm, by simpa [fieldsOf, ← hm] using h⟩
      · rcases h with h | ⟨b, hb, h⟩
        · exact ⟨2, hm, by simpa [fieldsOf, ← hm] using h⟩
        · cases h

end Sys2Proof.Machine
end

