-- ==== Sys2Proof/Tests/Slice0.lean ====
section
/-! SUPPORT. Tests of the model on the vectors of 95_test_vectors.md and on words written out from the encodings of
30_encoding.md, and a witness for the hypotheses of every statement. -/

namespace Sys2Proof.Tests

open Sys2Proof Sys2Proof.Machine Sys2Proof.Claims

/-- The next state of an outcome, if it is one. -/
def after (o : Host.Outcome State Fault Refusal) : Option State :=
  match o with
  | .next t => some t
  | .fault _ => none
  | .refused _ => none

/-- A running state with these registers, pc, FL and memory cells, the rest as after reset. -/
def machineAt (regs : Vector Byte 8) (pc : Nat) (fl : Byte) (mem : Memory) : State :=
  { State.reset with regs := regs, pc := pc, fl := fl, mem := mem }

/-- The state after reset with the underflow check on. -/
def checkedReset : State := State.initial { underflowCheck := true } (Vector.replicate 7 0)

/-- The state after reset with one register set. -/
def withReg (r : Fin 8) (v : Byte) (s : State) : State := { s with regs := s.regs.set r v }

/-! ### Well-formedness (30_encoding.md R64): an ill-formed term for each check -/

theorem test_wellFormed_accepts :
    (Instr.add 7 0).wellFormed = true ∧ (Instr.ldi 7 255).wellFormed = true ∧ Instr.ret.wellFormed = true := by decide

theorem test_wellFormed_refuses :
    (Instr.pra 8).wellFormed = false ∧ (Instr.push 8).wellFormed = false ∧ (Instr.pop 8).wellFormed = false ∧
    (Instr.prn 8).wellFormed = false ∧ (Instr.call 8).wellFormed = false ∧ (Instr.jmp 8).wellFormed = false ∧
    (Instr.jeq 8).wellFormed = false ∧ (Instr.jne 8).wellFormed = false ∧ (Instr.inc 8).wellFormed = false ∧
    (Instr.dec 8).wellFormed = false ∧ (Instr.not 8).wellFormed = false ∧ (Instr.ldi 8 0).wellFormed = false ∧
    (Instr.ld 8 0).wellFormed = false ∧ (Instr.ld 0 8).wellFormed = false ∧ (Instr.add 8 0).wellFormed = false ∧
    (Instr.add 0 8).wellFormed = false ∧ (Instr.mul 0 8).wellFormed = false ∧ (Instr.cmp 0 255).wellFormed = false ∧
    (Instr.and 8 0).wellFormed = false ∧ (Instr.xor 0 8).wellFormed = false := by decide

/-! ### Decoding: every constructor, from the bits of 30_encoding.md R65 -/

theorem test_decode_system :
    decode [0b00000000#8] = .ok (.nop, []) ∧ decode [0b00000001#8] = .ok (.hlt, []) := by decide

theorem test_decode_stack :
    decode [0b01000101#8, 0b00000010#8] = .ok (.push 2, []) ∧
    decode [0b01000110#8, 0b00000101#8] = .ok (.pop 5, []) := by decide

theorem test_decode_output :
    decode [0b01000011#8, 0b00000000#8] = .ok (.pra 0, []) ∧
    decode [0b01000111#8, 0b00000010#8] = .ok (.prn 2, []) := by decide

theorem test_decode_load :
    decode [0b10000010#8, 0b00000000#8, 0b01000001#8] = .ok (.ldi 0 0x41, []) ∧
    decode [0b10000011#8, 0b00000100#8, 0b00000001#8] = .ok (.ld 4 1, []) := by decide

theorem test_decode_control :
    decode [0b01010000#8, 0b00000010#8] = .ok (.call 2, []) ∧ decode [0b00010001#8] = .ok (.ret, []) ∧
    decode [0b01010100#8, 0b00000011#8] = .ok (.jmp 3, []) ∧
    decode [0b01010101#8, 0b00000010#8] = .ok (.jeq 2, []) ∧
    decode [0b01010110#8, 0b00000010#8] = .ok (.jne 2, []) := by decide

theorem test_decode_alu_one_operand :
    decode [0b01100101#8, 0b00000001#8] = .ok (.inc 1, []) ∧ decode [0b01100110#8, 0b00000001#8] = .ok (.dec 1, []) ∧
    decode [0b01101001#8, 0b00000100#8] = .ok (.not 4, []) := by decide

theorem test_decode_alu_two_operands :
    decode [0b10100000#8, 0b00000000#8, 0b00000001#8] = .ok (.add 0 1, []) ∧
    decode [0b10100010#8, 0b00000010#8, 0b00000011#8] = .ok (.mul 2 3, []) ∧
    decode [0b10100111#8, 0b00000000#8, 0b00000001#8] = .ok (.cmp 0 1, []) ∧
    decode [0b10101000#8, 0b00000000#8, 0b00000001#8] = .ok (.and 0 1, []) ∧
    decode [0b10101011#8, 0b00000000#8, 0b00000001#8] = .ok (.xor 0 1, []) := by decide

/-- 95_test_vectors.md DC1 to DC7, and what is missing at the end of the bytes (DC9, DC10). -/
theorem test_decode_rejects :
    decode [0x48#8, 0x00#8] = .error (.invalidOpcode 0x48) ∧ decode [0x84#8] = .error (.invalidOpcode 0x84) ∧
    decode [0xA1#8] = .error (.unsupportedOperation 0xA1) ∧ decode [0xA3#8] = .error (.unsupportedOperation 0xA3) ∧
    decode [0xE0#8] = .error (.unsupportedOperation 0xE0) ∧ decode [0xC0#8] = .error (.invalidOpcode 0xC0) ∧
    decode [0x30#8] = .error (.unsupportedOperation 0x30) ∧ decode [0x82#8] = .error (.missingOperand 0x82 1) ∧
    decode [0x82#8, 0x00#8] = .error (.missingOperand 0x82 2) ∧ decode [] = .error .noOpcode := by decide

/-- 95_test_vectors.md DC12. -/
theorem test_decoder_triples :
    decodeFields 0x82 = ⟨2, false, false⟩ ∧ decodeFields 0x43 = ⟨1, false, false⟩ ∧
    decodeFields 0x01 = ⟨0, false, false⟩ ∧ decodeFields 0x50 = ⟨1, false, true⟩ ∧
    decodeFields 0xA7 = ⟨2, true, false⟩ ∧ decodeFields 0xFF = ⟨3, true, true⟩ := by decide

/-- 30_encoding.md R67: the identifiers that collide. -/
theorem test_identifiers_collide :
    opcodeIdentifier 0x01 = opcodeIdentifier 0x11 ∧ opcodeIdentifier 0x43 = opcodeIdentifier 0x83 ∧
    opcodeIdentifier 0xAB = 11 := by decide

/-- The table's numbering: the first byte is bits 7..0, the second bits 15..8, and bits from nbits up are 0. -/
theorem test_decodeTableWord :
    decodeTableWord 24 0x410282 = some (.ldi 2 0x41) ∧ decodeTableWord 8 0x410282 = some (.ldi 0 0) ∧
    decodeTableWord 8 0xAB = some (.xor 0 0) ∧ decodeTableWord 8 0x48 = none := by decide

/-! ### The step -/

/-- The word placed for the next step is fetched and executed from reset. -/
theorem test_withFetchWord_runs :
    after (step (State.reset.withFetchWord 24 0x410282)) =
      some { State.reset.withFetchWord 24 0x410282 with regs := State.reset.regs.set 2 0x41, pc := 3 } := by decide

/-- 95_test_vectors.md DC8: classification comes before the operand fetch. -/
theorem test_step_classifies_first :
    (after (step (machineAt State.reset.regs 255 0 [(255, 0x48)]))).map (·.status) =
      some (.faulted (.invalidOpcode 0x48 255)) := by decide

/-- 95_test_vectors.md DC10 and DC11: the operand fetch and the opcode fetch above memory. -/
theorem test_step_fetches_above_memory :
    (after (step (machineAt State.reset.regs 254 0 [(254, 0x82)]))).map (·.status) =
      some (.faulted (.outOfBounds .mem 256)) ∧
    (after (step (machineAt State.reset.regs 256 0 []))).map (·.status) =
      some (.faulted (.outOfBounds .mem 256)) := by decide

/-! ### ALU (95_test_vectors.md AL1 to AL25) -/

theorem test_add_wraps :
    after (exec (.add 0 1) (machineAt #v[200, 100, 0, 0, 0, 0, 0, 0xF4] 0 4 [])) =
      some (machineAt #v[44, 100, 0, 0, 0, 0, 0, 0xF4] 3 4 []) := by decide

/-- AL24: operand a is checked first. -/
theorem test_add_checks_a_first :
    (after (exec (.add 8 9) State.reset)).map (·.status) = some (.faulted (.outOfBounds .reg 8)) := by decide

theorem test_mul_keeps_low_byte :
    (after (exec (.mul 0 1) (machineAt #v[255, 255, 0, 0, 0, 0, 0, 0] 0 0 []))).map (·.regs) =
      some #v[1, 255, 0, 0, 0, 0, 0, 0] := by decide

theorem test_mul_same_register :
    (after (exec (.mul 5 5) (machineAt #v[0, 0, 0, 0, 0, 17, 0, 0] 0 0 []))).map (·.regs) =
      some #v[0, 0, 0, 0, 0, 33, 0, 0] := by decide

theorem test_and :
    (after (exec (.and 0 1) (machineAt #v[0xF0, 0x3C, 0, 0, 0, 0, 0, 0] 0 0 []))).map (·.regs) =
      some #v[0x30, 0x3C, 0, 0, 0, 0, 0, 0] := by decide

theorem test_xor :
    (after (exec (.xor 0 1) (machineAt #v[0xF0, 0x3C, 0, 0, 0, 0, 0, 0] 0 0 []))).map (·.regs) =
      some #v[0xCC, 0x3C, 0, 0, 0, 0, 0, 0] := by decide

theorem test_not :
    after (exec (.not 4) (machineAt #v[0, 0, 0, 0, 0x0F, 0, 0, 0] 0 0 [])) =
      some (machineAt #v[0, 0, 0, 0, 0xF0, 0, 0, 0] 2 0 []) := by decide

theorem test_inc_wraps :
    (after (exec (.inc 1) (machineAt #v[0, 255, 0, 0, 0, 0, 0, 0] 0 0 []))).map (·.regs) =
      some #v[0, 0, 0, 0, 0, 0, 0, 0] := by decide

/-- AL14: INC R7 moves SP without a memory access. -/
theorem test_inc_sp : after (exec (.inc 7) State.reset) =
    some { State.reset with regs := State.reset.regs.set 7 0xF5, pc := 2 } := by decide

theorem test_dec_wraps :
    (after (exec (.dec 1) (machineAt #v[0, 0, 0, 0, 0, 0, 0, 0] 0 0 []))).map (·.regs) =
      some #v[0, 255, 0, 0, 0, 0, 0, 0] := by decide

/-- AL19 and AL20: unsigned, and FL is overwritten whole. -/
theorem test_cmp_unsigned :
    (after (exec (.cmp 0 1) (machineAt #v[0x80, 0x7F, 0, 0, 0, 0, 0, 0] 0 0 []))).map (·.fl) = some 0x02 ∧
    (after (exec (.cmp 0 1) (machineAt #v[0, 255, 0, 0, 0, 0, 0, 0] 0 1 []))).map (·.fl) = some 0x04 := by decide

/-- AL25: on a raise FL is unchanged. -/
theorem test_cmp_raises :
    after (exec (.cmp 0 9) State.reset) = some { State.reset with status := .faulted (.outOfBounds .reg 9) } := by decide

/-! ### Load and output (LO1 to LO12) -/

theorem test_ldi :
    (after (exec (.ldi 0 0xFF) State.reset)).map (·.regs) = some #v[255, 0, 0, 0, 0, 0, 0, 0xF4] := by decide

theorem test_ldi_raises :
    (after (exec (.ldi 8 5) State.reset)).map (·.status) = some (.faulted (.outOfBounds .reg 8)) := by decide

theorem test_ld :
    (after (exec (.ld 0 1) (machineAt #v[0, 0x10, 0, 0, 0, 0, 0, 0] 0 0 [(0x10, 7)]))).map (·.regs) =
      some #v[7, 0x10, 0, 0, 0, 0, 0, 0] := by decide

/-- LO6: LD R0, R0 reads its own opcode byte. -/
theorem test_ld_own_byte :
    (after (step (machineAt State.reset.regs 0 0 [(0, 0x83), (3, 1)]))).map (·.regs) =
      some (State.reset.regs.set 0 0x83) := by decide

theorem test_prn :
    after (exec (.prn 2) (machineAt #v[0, 0, 42, 0, 0, 0, 0, 0] 0 0 [])) =
      some { machineAt #v[0, 0, 42, 0, 0, 0, 0, 0] 2 0 [] with diag := [42] } := by decide

theorem test_pra :
    after (exec (.pra 0) { withReg 0 0x41 State.reset with out := [0x30] }) =
      some { withReg 0 0x41 State.reset with out := [0x30, 0x41], pc := 2 } := by decide

/-! ### Stack (ST1 to ST10) -/

/-- ST2: PUSH R7 stores the decremented SP. -/
theorem test_push_sp :
    after (exec (.push 7) State.reset) =
      some { State.reset with regs := State.reset.regs.set 7 0xF3, mem := [(0xF3, 0xF3)], pc := 2 } := by decide

/-- ST3: SP wraps at 0. -/
theorem test_push_wraps :
    (after (exec (.push 0) (machineAt #v[0x55, 0, 0, 0, 0, 0, 0, 0] 0 0 []))).map (·.mem) = some [(0xFF, 0x55)] := by
  decide

/-- ST4: the popped cell is not cleared. -/
theorem test_pop :
    after (exec (.pop 1) (machineAt #v[0, 0, 0, 0, 0, 0, 0, 0xF3] 0 0 [(0xF3, 9)])) =
      some (machineAt #v[0, 9, 0, 0, 0, 0, 0, 0xF4] 2 0 [(0xF3, 9)]) := by decide

/-- ST5: POP R7 ends with the popped byte plus one. -/
theorem test_pop_sp :
    (after (exec (.pop 7) (machineAt #v[0, 0, 0, 0, 0, 0, 0, 0xF3] 0 0 [(0xF3, 0x10)]))).map (·.regs) =
      some #v[0, 0, 0, 0, 0, 0, 0, 0x11] := by decide

/-- ST6 and ST7: an empty stack, with the check off and on. -/
theorem test_underflow_check :
    (after (exec (.pop 0) State.reset)).map (·.regs) = some #v[0, 0, 0, 0, 0, 0, 0, 0xF5] ∧
    (after (exec (.pop 0) checkedReset)).map (·.status) = some (.faulted (.outOfBounds .stack 0xF4)) ∧
    (after (exec .ret checkedReset)).map (·.status) = some (.faulted (.outOfBounds .stack 0xF4)) := by decide

/-! ### Control transfer (CT1 to CT14) -/

theorem test_call :
    after (exec (.call 1) (machineAt #v[0, 0x40, 0, 0, 0, 0, 0, 0xF4] 0x10 0 [])) =
      some (machineAt #v[0, 0x40, 0, 0, 0, 0, 0, 0xF3] 0x40 0 [(0xF3, 0x12)]) := by decide

/-- CT2: a return address of 256 raises before any write. -/
theorem test_call_at_254 :
    after (exec (.call 0) (machineAt State.reset.regs 254 0 [])) =
      some { machineAt State.reset.regs 254 0 [] with status := .faulted (.outOfBounds .mem 256) } := by decide

theorem test_ret :
    after (exec .ret (machineAt #v[0, 0, 0, 0, 0, 0, 0, 0xF3] 0 0 [(0xF3, 0x12)])) =
      some (machineAt #v[0, 0, 0, 0, 0, 0, 0, 0xF4] 0x12 0 [(0xF3, 0x12)]) := by decide

theorem test_jmp :
    (after (exec (.jmp 3) (machineAt #v[0, 0, 0, 0x20, 0, 0, 0, 0] 0 0 []))).map (·.pc) = some 0x20 := by decide

theorem test_jeq :
    (after (exec (.jeq 2) (machineAt #v[0, 0, 0x30, 0, 0, 0, 0, 0] 8 1 []))).map (·.pc) = some 0x30 ∧
    (after (exec (.jeq 2) (machineAt #v[0, 0, 0x30, 0, 0, 0, 0, 0] 8 2 []))).map (·.pc) = some 0x0A := by decide

/-- CT13: a not-taken JEQ reads no register. -/
theorem test_jeq_not_taken_reads_nothing :
    after (exec (.jeq 9) State.reset) = some { State.reset with pc := 2 } := by decide

theorem test_jne :
    (after (exec (.jne 2) (machineAt #v[0, 0, 0x30, 0, 0, 0, 0, 0] 8 4 []))).map (·.pc) = some 0x30 ∧
    (after (exec (.jne 2) (machineAt #v[0, 0, 0x30, 0, 0, 0, 0, 0] 8 1 []))).map (·.pc) = some 0x0A := by decide

/-- CT14: a taken JNE checks its operand. -/
theorem test_jne_taken_raises :
    (after (exec (.jne 9) State.reset)).map (·.status) = some (.faulted (.outOfBounds .reg 9)) := by decide

/-! ### System (SY1, SY3) -/

theorem test_nop : after (exec .nop { State.reset with pc := 5 }) = some { State.reset with pc := 6 } := by decide

theorem test_hlt :
    after (exec .hlt { State.reset with pc := 5, out := [0x41] }) =
      some { State.reset with pc := 5, out := [0x41], status := .halted } := by decide

/-! ### Loader (LD1 to LD6) and the source's example (S7) -/

/-- LD1 and LD2. -/
theorem test_loader_lines :
    readLine ['1', '0', '0', '0', '0', '0', '1', '0', ' ', '#', ' ', 'L', 'D', 'I'] = .byte 0x82 ∧
    readLine [] = .skip ∧ readLine [' ', ' ', ' '] = .skip ∧ readLine ['#', ' ', 'x'] = .skip := by decide

/-- LD3, LD4 and LD6. -/
theorem test_loader_literals :
    parseLiteral ['1'] = some 1 ∧ parseLiteral ['0', '0', '0', '0', '0', '0', '0', '0', '1'] = some 1 ∧
    parseLiteral ['1', '0', '0', '0', '0', '0', '0', '0', '0'] = none ∧ parseLiteral ['0', 'b', '1'] = none ∧
    parseLiteral ['1', '2'] = none ∧ parseLiteral ['-', '1'] = none ∧ parseLiteral ['1', '_', '0'] = none := by decide

/-- LD5: the failing line is line 3. -/
theorem test_loader_bad_line :
    parseProgram (['1', '\n', '0', '\n', '0', 'x']) = .error (.badLine 3 ['0', 'x']) := by decide

/-- S7: the source's example halts with output A. -/
theorem test_source_example :
    runProgram Config.standard (Vector.replicate 7 0) (listingText [.ldi 0 0x41, .pra 0, .hlt]) 3 = .halted ['A'] := by
  decide

/-- 30_encoding.md R71: the assembler lines of its examples. -/
theorem test_assembler_lines :
    assemblerLine (.ldi 0 0x41) = some ['L', 'D', 'I', ' ', 'R', '0', ',', ' ', '6', '5'] ∧
    assemblerLine (.add 0 1) = some ['A', 'D', 'D', ' ', 'R', '0', ',', ' ', 'R', '1'] ∧
    assemblerLine .ret = some ['R', 'E', 'T'] ∧ assemblerLine (.push 8) = none := by decide

/-! ### A witness for the hypotheses of every statement, at the boundary values of its clauses -/

theorem witness_DecodedBytesAreTheEncoding : decode [0x82#8, 0xFF#8, 0x00#8, 0x11#8] = .ok (.ldi 0xFF 0, [0x11]) := by
  decide

/-- The last byte of memory is an instruction of one byte. -/
theorem witness_StepRunsDecodedInstruction :
    (machineAt State.reset.regs 255 0 [(255, 0x01)]).status = .running ∧
    decode (bytesAtPc (machineAt State.reset.regs 255 0 [(255, 0x01)])) = .ok (.hlt, []) := by decide

/-- pc above memory; an instruction fetched at 255; a NOP at 255. -/
theorem witness_OpcodeIsFetchedAtPc :
    ((machineAt State.reset.regs 256 0 []).status = .running ∧ 255 < (machineAt State.reset.regs 256 0 []).pc) ∧
    fetch (machineAt State.reset.regs 255 0 [(255, 0x01)]) = .ok .hlt ∧
    ((machineAt State.reset.regs 255 0 []).status = .running ∧ (machineAt State.reset.regs 255 0 []).pc = 255 ∧
      readCell (machineAt State.reset.regs 255 0 []).mem 255 = 0x00#8) :=
  ⟨by decide, rfl, by decide⟩

theorem witness_UndefinedAluByteRaises :
    (machineAt State.reset.regs 255 0 [(255, 0xE0)]).status = .running ∧
    (machineAt State.reset.regs 255 0 [(255, 0xE0)]).pc ≤ 255 ∧
    (readCell [(255, 0xE0)] 255).getLsbD 5 = true ∧ readCell [(255, 0xE0)] 255 ∉ aluOps := by decide

theorem witness_UndefinedOtherByteRaises :
    (machineAt State.reset.regs 255 0 [(255, 0x48)]).status = .running ∧
    (machineAt State.reset.regs 255 0 [(255, 0x48)]).pc ≤ 255 ∧
    (readCell [(255, 0x48)] 255).getLsbD 5 = false ∧ readCell [(255, 0x48)] 255 ∉ nonAluOps := by decide

/-- A 2-byte instruction at 255 and a 3-byte instruction at 254. -/
theorem witness_OperandFetchAboveMemoryRaises :
    State.reset.status = .running ∧
    (readCell [(255, 0x43)] 255 = opcodeByte .pra ∧ 255 < 255 + (decodeFields (opcodeByte .pra)).operandCount) ∧
    (readCell [(254, 0x82)] 254 = opcodeByte .ldi ∧ 255 < 254 + (decodeFields (opcodeByte .ldi)).operandCount) := by
  decide

theorem witness_RaiseIsPreciseAndEndsTheRun :
    ∃ t, step (machineAt State.reset.regs 256 0 []) = .next t ∧ t.status = .faulted (.outOfBounds .mem 256) :=
  ⟨_, rfl, rfl⟩

/-- A step; an LD whose address is 255, the top of memory; a well-formed instruction on register 7. -/
theorem witness_ConditionsNeverRaised :
    (∃ t, step (machineAt State.reset.regs 255 0 []) = .next t) ∧
    (State.reset.status = .running ∧ (Instr.ld 0 1).mnemonic ∈ [Mnemonic.ld, .push, .pop, .ret] ∧
      ∃ t, exec (.ld 0 1) (withReg 1 255 State.reset) = .next t) ∧
    ((Instr.inc 7).wellFormed = true ∧ ∃ t, exec (.inc 7) State.reset = .next t) :=
  ⟨⟨_, rfl⟩, ⟨rfl, by decide, _, rfl⟩, by decide, _, rfl⟩

/-- Each of the three ways an instruction can leave the status, and a step. -/
theorem witness_StatusFrame :
    State.reset.status = .running ∧ (∃ t, exec .nop State.reset = .next t ∧ t.status = .running) ∧
    (∃ t, exec .hlt State.reset = .next t ∧ t.status = .halted) ∧
    (∃ t, exec (.inc 8) State.reset = .next t ∧ t.status = .faulted (.outOfBounds .reg 8)) ∧
    (∃ t, step (machineAt State.reset.regs 255 0 []) = .next t) :=
  ⟨rfl, ⟨_, rfl, rfl⟩, ⟨_, rfl, rfl⟩, ⟨_, rfl, rfl⟩, _, rfl⟩

theorem witness_AutoAdvancePassesTheInstruction :
    (decodeFields (opcodeByte (Instr.ldi 7 0).mnemonic)).setsPc = false ∧ State.reset.status = .running ∧
    ∃ t, exec (.ldi 7 0) State.reset = .next t ∧ t.status = .running :=
  ⟨by decide, rfl, _, rfl, rfl⟩

theorem witness_StepKeepsInvariant :
    (machineAt State.reset.regs 255 4 [(0xF3, 9)]).Inv ∧ ∃ t, step (machineAt State.reset.regs 255 4 [(0xF3, 9)]) = .next t :=
  ⟨⟨rfl, by decide, .inr (.inr (.inr rfl)), trivial⟩, _, rfl⟩

theorem witness_OnlyCmpWritesFlags :
    ((Instr.add 0 7).mnemonic ≠ .cmp ∧ ∃ t, exec (.add 0 7) State.reset = .next t) ∧
    (State.reset.status = .running ∧ ∃ t, exec (.cmp 0 7) State.reset = .next t ∧ t.status = .running) :=
  ⟨⟨by decide, _, rfl⟩, rfl, _, rfl, rfl⟩

theorem witness_OutputsOnlyAppended :
    (∃ t, exec (.pra 7) State.reset = .next t) ∧ (∃ t, exec (.prn 7) State.reset = .next t) := ⟨⟨_, rfl⟩, _, rfl⟩

/-- An instruction that stores nothing, and PUSH with SP = 0, which stores at 255. -/
theorem witness_MemoryFrame :
    (storesToMemory (.ld 0 1) = false ∧ ∃ t, exec (.ld 0 1) State.reset = .next t) ∧
    (storesToMemory (.push 0) = true ∧ (∃ t, exec (.push 0) (withReg 7 0 State.reset) = .next t) ∧
      254 ≠ (sp (decSp (withReg 7 0 State.reset))).toNat) :=
  ⟨⟨rfl, _, rfl⟩, rfl, ⟨_, rfl⟩, by decide⟩

theorem witness_RegisterFrame :
    (∃ t, exec (.pop 0) State.reset = .next t) ∧ (1 : Fin 8).val ∉ writtenRegs (.pop 0) := ⟨⟨_, rfl⟩, by decide⟩

theorem witness_OnlyEqualFlagIsObserved :
    (0x06#8).getLsbD 0 = State.reset.fl.getLsbD 0 ∧ (0x03#8).getLsbD 0 = (machineAt #v[0, 0, 0, 0, 0, 0, 0, 0] 0 1 []).fl.getLsbD 0 := by
  decide

theorem witness_VerdictIsStableUnderMoreFuel :
    runFor 1 (machineAt State.reset.regs 255 0 [(255, 0x01)]) ≠ .noVerdict ∧ runFor 0 (halt State.reset) ≠ .noVerdict := by
  decide

theorem witness_MemoryAccessors : 255 < 256 ∧ 255 ≤ 255 ∧ 254 ≤ 255 ∧ 254 ≠ 255 := by decide

theorem witness_RegisterFileAccessors :
    8 ≤ (8#8).toNat ∧ 8 ≤ (255#8).toNat ∧ (7#8).toNat < 8 ∧ (0#8) ≠ (7#8) := by decide

theorem witness_LoadedMachine :
    parseProgram (listingText [.pra 0]) = .ok [0x43, 0x00] ∧ parseProgram [] = .ok [] := by decide

theorem witness_FailedLoadRunsNoStep : parseProgram ['2'] = .error (.badLine 1 ['2']) := by decide

theorem witness_LoaderReadsProgramText :
    (List.replicate 256 (0#8)).length ≤ 256 ∧ 256 < (List.replicate 257 (0#8)).length := by
  simp only [List.length_replicate]; decide

theorem witness_LoaderReportsFirstBadLine :
    (∀ l ∈ [['1'], []], readLine l ≠ .bad) ∧ byteCount [['1'], []] ≤ 256 ∧ readLine ['2'] = .bad := by decide

theorem witness_LiteralValidity : ['1'] ≠ [] ∧ parseLiteral ['1', '1', '1', '1', '1', '1', '1', '1'] = some 255 := by
  decide

theorem witness_LoaderIgnoresCommentsAndMargins :
    '#' ∉ ['1', '0'] ∧ ['\t', ' '].all isWhitespace = true ∧ ['\r'].all isWhitespace = true := by decide

theorem witness_AddResult :
    State.reset.status = .running ∧ (7#8).toNat = (7 : Fin 8).val ∧ (0#8).toNat = (0 : Fin 8).val ∧
    8 ≤ (8#8).toNat ∧ (7#8).toNat < 8 := by decide

theorem witness_MulResult :
    State.reset.status = .running ∧ (7#8).toNat = (7 : Fin 8).val ∧ (0#8).toNat = (0 : Fin 8).val ∧
    8 ≤ (8#8).toNat ∧ (7#8).toNat < 8 := by decide

theorem witness_AndResult :
    State.reset.status = .running ∧ (7#8).toNat = (7 : Fin 8).val ∧ (0#8).toNat = (0 : Fin 8).val ∧
    8 ≤ (8#8).toNat ∧ (7#8).toNat < 8 := by decide

theorem witness_XorResult :
    State.reset.status = .running ∧ (7#8).toNat = (7 : Fin 8).val ∧ (0#8).toNat = (0 : Fin 8).val ∧
    8 ≤ (8#8).toNat ∧ (7#8).toNat < 8 := by decide

theorem witness_CmpResult :
    State.reset.status = .running ∧ (7#8).toNat = (7 : Fin 8).val ∧ (0#8).toNat = (0 : Fin 8).val ∧
    8 ≤ (8#8).toNat ∧ (7#8).toNat < 8 := by decide

theorem witness_LdResult :
    State.reset.status = .running ∧ (7#8).toNat = (7 : Fin 8).val ∧ (0#8).toNat = (0 : Fin 8).val ∧
    8 ≤ (8#8).toNat ∧ (7#8).toNat < 8 := by decide

theorem witness_NotResult :
    State.reset.status = .running ∧ (7#8).toNat = (7 : Fin 8).val ∧ 8 ≤ (8#8).toNat := by decide

theorem witness_IncResult :
    State.reset.status = .running ∧ (7#8).toNat = (7 : Fin 8).val ∧ 8 ≤ (8#8).toNat := by decide

theorem witness_DecResult :
    State.reset.status = .running ∧ (7#8).toNat = (7 : Fin 8).val ∧ 8 ≤ (8#8).toNat := by decide

theorem witness_LdiResult :
    State.reset.status = .running ∧ (7#8).toNat = (7 : Fin 8).val ∧ 8 ≤ (8#8).toNat := by decide

theorem witness_PrnResult :
    State.reset.status = .running ∧ (7#8).toNat = (7 : Fin 8).val ∧ 8 ≤ (8#8).toNat := by decide

theorem witness_PraResult :
    State.reset.status = .running ∧ (7#8).toNat = (7 : Fin 8).val ∧ 8 ≤ (8#8).toNat := by decide

theorem witness_PushResult :
    State.reset.status = .running ∧ (7#8).toNat = (7 : Fin 8).val ∧ 8 ≤ (8#8).toNat := by decide

theorem witness_SubAndDivAreReserved : aluByte .cmp = some 0xA7#8 := by decide

/-- With the check off SP may be anything; with it on SP may be 0xF3. -/
theorem witness_PopResult :
    State.reset.status = .running ∧ (7#8).toNat = (7 : Fin 8).val ∧ PopAllowed State.reset ∧
    PopAllowed (withReg 7 0xF3 checkedReset) ∧ 8 ≤ (8#8).toNat := by
  refine ⟨rfl, rfl, .inl rfl, .inr ?_, ?_⟩ <;> decide

/-- The check on, SP at 0xF4 and at 0xFF; and a raise of the stack condition. -/
theorem witness_UnderflowCheckRaises :
    (7#8).toNat < 8 ∧ checkedReset.config.underflowCheck = true ∧ 0xF4 ≤ (checkedReset.regs[7]).toNat ∧
    0xF4 ≤ ((withReg 7 0xFF checkedReset).regs[7]).toNat ∧ checkedReset.status = .running ∧
    (after (exec .ret checkedReset)).map (·.status) = some (.faulted (.outOfBounds .stack 0xF4)) := by decide

/-- With the check off, and with the check on and SP at 0xF4. -/
theorem witness_PushThenPopCopies :
    State.reset.status = .running ∧ (0#8).toNat = (0 : Fin 8).val ∧ (6#8).toNat = (6 : Fin 8).val ∧
    (0 : Fin 8) ≠ 7 ∧ (6 : Fin 8) ≠ 7 ∧ State.reset.config.underflowCheck = false ∧
    (checkedReset.regs[7] - 1#8).toNat < 0xF4 := by decide

/-- CALL at 253, the last place where the return address fits, and at 254. -/
theorem witness_CallResult :
    (7#8).toNat = (7 : Fin 8).val ∧ 253 + 2 ≤ 255 ∧ (7#8).toNat < 8 ∧ 255 < 254 + 2 ∧ 8 ≤ (8#8).toNat := by decide

theorem witness_RetResult : PopAllowed State.reset ∧ PopAllowed (withReg 7 0xF3 checkedReset) := by
  refine ⟨.inl rfl, .inr ?_⟩; decide

/-- RET at once after CALL R1, with the check on. -/
theorem witness_RetResumesAfterCall :
    ∃ t, (1#8).toNat < 8 ∧ checkedReset.pc + 2 ≤ 255 ∧ exec (.call 1) checkedReset = .next t ∧ t.regs[7] = t.regs[7] ∧
      readCell t.mem (t.regs[7]).toNat = readCell t.mem (t.regs[7]).toNat ∧ PopAllowed t := by
  refine ⟨_, by decide, by decide, rfl, rfl, rfl, .inr ?_⟩; decide

theorem witness_JmpResult :
    (7#8).toNat = (7 : Fin 8).val ∧ 8 ≤ (8#8).toNat ∧ (0#8).toNat = (0 : Fin 8).val ∧
    (State.reset.regs[(0 : Fin 8)]).toNat = State.reset.pc := by decide

theorem witness_JeqResult :
    (machineAt State.reset.regs 0 1 []).fl.getLsbD 0 = true ∧ State.reset.fl.getLsbD 0 = false ∧
    (7#8).toNat = (7 : Fin 8).val ∧ 8 ≤ (8#8).toNat := by decide

theorem witness_JneResult :
    (machineAt State.reset.regs 0 1 []).fl.getLsbD 0 = true ∧ (machineAt State.reset.regs 0 4 []).fl.getLsbD 0 = false ∧
    (7#8).toNat = (7 : Fin 8).val ∧ 8 ≤ (8#8).toNat := by decide

theorem witness_ConditionalJumpsFallThrough :
    (machineAt State.reset.regs 0 1 []).fl.getLsbD 0 = true ∧ (machineAt State.reset.regs 0 4 []).fl.getLsbD 0 = false := by
  decide

theorem witness_NopResult : State.reset.status = .running := by decide

end Sys2Proof.Tests
end

section
/-! SUPPORT AND PROOFS for the statements about the state (10_state.md): what a completed handler updates, what a handler
raises, and which states a run does not tell apart; from these the invariant, the frames and the non-interference
statements. -/

namespace Sys2Proof.Machine

open Sys2Proof.Claims

/-! ### The length of an instruction -/

/-- An instruction is its opcode byte and as many operand bytes as the opcode's count (30_encoding.md R60). -/
theorem length_encode (i : Instr) : (encode i).length = (fieldsOf i.mnemonic).operandCount + 1 := by
  rw [fieldsOf, operandCount_opcodeByte, encode, List.length_cons]

theorem operandCount_le_two (m : Mnemonic) : (fieldsOf m).operandCount ≤ 2 := by
  cases m <;> simp

/-! ### What a completed handler updates -/

/-- The updates a completed handler makes, by the shape of the update. The values written are left open: the `_eq_ok`
lemma of each handler has them. -/
inductive Completes : Instr → State → State → Prop
  | nop {s : State} : Completes .nop s s
  | hlt {s : State} : Completes .hlt s (halt s)
  | register {i : Instr} {s : State} (r : Fin 8) (v : Int) (hw : writtenRegs i = [r.val])
      (hi : (fieldsOf i.mnemonic).setsPc = false) : Completes i s (writeReg r v s)
  | flags {a b : Byte} {s : State} (x y : Byte) : Completes (.cmp a b) s (setFlags (compareFlags x y) s)
  | output {a : Byte} {s : State} (v : Byte) : Completes (.pra a) s (appendOut v s)
  | diagnostic {a : Byte} {s : State} (v : Byte) : Completes (.prn a) s (appendDiag v s)
  | push {a : Byte} {s : State} (v : Byte) :
      Completes (.push a) s { decSp s with mem := writeCell s.mem (sp (decSp s)).toNat v }
  | pop {a : Byte} {s : State} (r : Fin 8) (v : Int) (ha : a.toNat = r.val) :
      Completes (.pop a) s (incSp (writeReg r v s))
  | call {a : Byte} {s : State} (v target : Byte) :
      Completes (.call a) s
        { decSp s with mem := writeCell s.mem (sp (decSp s)).toNat v, pc := target.toNat }
  | ret {s : State} (target : Byte) : Completes .ret s (incSp (setPc target.toNat s))
  | jump {i : Instr} {s : State} (r : Fin 8) (hi : (fieldsOf i.mnemonic).setsPc = true) : Completes i s (jumpTo r s)
  | fall {i : Instr} {s : State} (hi : (fieldsOf i.mnemonic).setsPc = true) :
      Completes i s (fallThrough i.mnemonic s)

theorem Completes.of_aluBinary {i : Instr} {f : Byte → Byte → Int} {a b : Byte} {s u : State}
    (hw : writtenRegs i = [a.toNat]) (hi : (fieldsOf i.mnemonic).setsPc = false)
    (h : aluBinary f a b s = .ok u) : Completes i s u := by
  obtain ⟨ra, rb, ha, -, rfl⟩ := aluBinary_eq_ok.mp h
  exact .register ra _ (ha ▸ hw) hi

theorem Completes.of_aluUnary {i : Instr} {f : Byte → Int} {a : Byte} {s u : State}
    (hw : writtenRegs i = [a.toNat]) (hi : (fieldsOf i.mnemonic).setsPc = false)
    (h : aluUnary f a s = .ok u) : Completes i s u := by
  obtain ⟨ra, ha, rfl⟩ := aluUnary_eq_ok.mp h
  exact .register ra _ (ha ▸ hw) hi

theorem Completes.of_jumpIf {i : Instr} {taken : Bool} {a : Byte} {s u : State}
    (hi : (fieldsOf i.mnemonic).setsPc = true) (h : jumpIf i.mnemonic taken a s = .ok u) : Completes i s u := by
  obtain ⟨-, ra, -, rfl⟩ | ⟨-, rfl⟩ := jumpIf_eq_ok.mp h
  · exact .jump ra hi
  · exact .fall hi

/-- Every completed handler makes one of these updates (40_execution_cycle.md R86). -/
theorem completes_of_handlerOf {i : Instr} {s u : State} (h : handlerOf i s = .ok u) : Completes i s u := by
  unfold handlerOf at h
  cases i with
  | nop => cases h; exact .nop
  | hlt => cases h; exact .hlt
  | ret => obtain ⟨-, rfl⟩ := returnToTop_eq_ok.mp h; exact .ret _
  | pra a => obtain ⟨ra, -, rfl⟩ := printChar_eq_ok.mp h; exact .output _
  | push a => obtain ⟨ra, -, rfl⟩ := pushReg_eq_ok.mp h; exact .push _
  | pop a => obtain ⟨-, ra, ha, rfl⟩ := popReg_eq_ok.mp h; exact .pop ra _ ha
  | prn a => obtain ⟨ra, -, rfl⟩ := printNumber_eq_ok.mp h; exact .diagnostic _
  | call a => obtain ⟨-, ra, -, rfl⟩ := callReg_eq_ok.mp h; exact .call _ _
  | jmp a => obtain ⟨ra, -, rfl⟩ := jumpReg_eq_ok.mp h; exact .jump ra (by simp [Instr.mnemonic])
  | jeq a | jne a => exact .of_jumpIf (by simp [Instr.mnemonic]) h
  | inc a | dec a | not a => exact .of_aluUnary rfl (by simp [Instr.mnemonic]) h
  | ldi a imm =>
    obtain ⟨ra, ha, rfl⟩ := loadImmediate_eq_ok.mp h
    exact .register ra _ (ha ▸ rfl) (by simp [Instr.mnemonic])
  | ld a b =>
    obtain ⟨ra, rb, ha, -, rfl⟩ := loadIndirect_eq_ok.mp h
    exact .register ra _ (ha ▸ rfl) (by simp [Instr.mnemonic])
  | add a b | mul a b | and a b | xor a b => exact .of_aluBinary rfl (by simp [Instr.mnemonic]) h
  | cmp a b => obtain ⟨ra, rb, -, -, rfl⟩ := aluCompare_eq_ok.mp h; exact .flags _ _

/-- Executing an instruction makes one of the updates and the auto-advance, or raises. -/
theorem exec_completes_or_raises {i : Instr} {s t : State} (h : exec i s = .next t) :
    (∃ u, Completes i s u ∧ t = autoAdvance i.mnemonic u) ∨ (∃ c, handlerOf i s = .error c ∧ t = raise c s) := by
  obtain ⟨u, hu, rfl⟩ | hc := exec_cases h
  · exact .inl ⟨u, completes_of_handlerOf hu, rfl⟩
  · exact .inr hc

section Frames

variable {i : Instr} {s u : State}

/-- A comparison leaves exactly one of E, G and L (41_alu.md R108). -/
theorem compareFlags_legal (x y : Byte) : flagsLegal (compareFlags x y) := by
  unfold compareFlags flagsLegal
  split
  · simp
  · split <;> simp

/-- A write of SP leaves every other register (10_state.md R20, R23). -/
theorem getElem_set_spIndex (regs : Vector Byte 8) (v : Byte) {r : Fin 8} (hr : r.val ≠ 7) :
    (regs.set spIndex v)[r] = regs[r] :=
  Vector.getElem_set_ne _ _ (Ne.symm hr)

/-- Only HLT's handler ends the run (45_system.md R191). -/
theorem Completes.status (h : Completes i s u) :
    (i ≠ .hlt ∧ u.status = s.status) ∨ (i = .hlt ∧ u.status = .halted) := by
  cases h with
  | hlt => exact .inr ⟨rfl, rfl⟩
  | register r v hw hi => exact .inl ⟨by rintro rfl; simp [writtenRegs] at hw, rfl⟩
  | jump r hi => exact .inl ⟨by rintro rfl; simp [Instr.mnemonic] at hi, rfl⟩
  | fall hi => exact .inl ⟨by rintro rfl; simp [Instr.mnemonic] at hi, rfl⟩
  | _ => exact .inl ⟨by simp, rfl⟩

theorem Completes.config (h : Completes i s u) : u.config = s.config := by
  cases h <;> rfl

theorem Completes.out (h : Completes i s u) :
    u.out = s.out ∨ ∃ a v, i = .pra a ∧ u.out = s.out ++ [v] := by
  cases h with
  | output v => exact .inr ⟨_, v, rfl, rfl⟩
  | _ => exact .inl rfl

theorem Completes.diag (h : Completes i s u) :
    u.diag = s.diag ∨ ∃ a v, i = .prn a ∧ u.diag = s.diag ++ [v] := by
  cases h with
  | diagnostic v => exact .inr ⟨_, v, rfl, rfl⟩
  | _ => exact .inl rfl

theorem Completes.regs (h : Completes i s u) {r : Fin 8} (hr : r.val ∉ writtenRegs i) : u.regs[r] = s.regs[r] := by
  cases h with
  | register q v hw hi =>
    rw [hw, List.mem_singleton] at hr
    simp [Ne.symm hr]
  | push v => exact getElem_set_spIndex s.regs _ (by simpa [writtenRegs] using hr)
  | pop q v ha =>
    obtain ⟨hq, hSp⟩ : r.val ≠ q.val ∧ r.val ≠ 7 := by simpa [writtenRegs, ha] using hr
    calc (incSp (writeReg q v s)).regs[r]
      _ = (writeReg q v s).regs[r] := getElem_set_spIndex _ _ hSp
      _ = s.regs[r] := by simp [Ne.symm hq]
  | call v target => exact getElem_set_spIndex s.regs _ (by simpa [writtenRegs] using hr)
  | ret target => exact getElem_set_spIndex s.regs _ (by simpa [writtenRegs] using hr)
  | _ => rfl

/-- Where the sets-PC flag is 0 the handler leaves pc to the auto-advance (40_execution_cycle.md R87). -/
theorem Completes.pc_of_setsPc_false (h : Completes i s u) (hi : (fieldsOf i.mnemonic).setsPc = false) :
    u.pc = s.pc := by
  cases h with
  | call v target => simp [Instr.mnemonic] at hi
  | ret target => simp [Instr.mnemonic] at hi
  | jump r hj => simp [hj] at hi
  | fall hj => simp [hj] at hi
  | _ => rfl

/-- Where the sets-PC flag is 1 pc is a byte, or the handler advances it itself (44_control_transfer.md R170;
40_execution_cycle.md R88). -/
theorem Completes.pc_of_setsPc_true (h : Completes i s u) (hi : (fieldsOf i.mnemonic).setsPc = true) :
    u.pc < 256 ∨ u.pc = s.pc + (fieldsOf i.mnemonic).operandCount + 1 := by
  cases h with
  | register r v hw hj => simp [hj] at hi
  | call v target => exact .inl target.isLt
  | ret target => exact .inl target.isLt
  | jump r hj => exact .inl (readReg r s).isLt
  | fall hj => exact .inr rfl
  | _ => simp [Instr.mnemonic] at hi

/-- FL is written by CMP alone, with one of its three outcomes (41_alu.md R108, R111). -/
theorem Completes.fl (h : Completes i s u) :
    u.fl = s.fl ∨ ∃ a b x y, i = .cmp a b ∧ u.fl = compareFlags x y := by
  cases h with
  | flags x y => exact .inr ⟨_, _, x, y, rfl, rfl⟩
  | _ => exact .inl rfl

theorem Completes.mem_wf (h : Completes i s u) (hs : Memory.wf s.mem = true) : Memory.wf u.mem = true := by
  cases h with
  | push v => exact Memory.wf_writeCell v hs (sp (decSp s)).isLt
  | call v target => exact Memory.wf_writeCell v hs (sp (decSp s)).isLt
  | _ => exact hs

end Frames

/-! ### What a handler raises -/

/-- The conditions a handler of this instruction may raise in this state, with what each says of the state
(10_state.md R21; 43_stack.md R153; 44_control_transfer.md R171). -/
inductive Raisable (i : Instr) (s : State) : Condition → Prop
  | register (a : Byte) (ha : a ∈ i.regOperands) (hge : 8 ≤ a.toNat) : Raisable i s (.outOfBounds .reg a.toNat)
  | returnAddress (a : Byte) (hi : i = .call a) (hge : 256 ≤ s.pc + 2) : Raisable i s (.outOfBounds .mem (s.pc + 2))
  | underflow (hi : i = .ret ∨ ∃ a, i = .pop a) (hc : s.config.underflowCheck = true) (hge : 0xF4 ≤ (sp s).toNat) :
      Raisable i s (.outOfBounds .stack (sp s).toNat)

section Raising

variable {i : Instr} {s : State} {a b : Byte} {c : Condition}

/-- A handler that starts with the check of a register operand raises that check's condition, or completes the check
and raises in what follows. -/
theorem Raisable.of_checkReg_bind {α : Type} {f : Fin 8 → Except Condition α} (ha : a ∈ i.regOperands)
    (h : checkReg a >>= f = .error c) (hf : ∀ r, f r = .error c → Raisable i s c) : Raisable i s c := by
  obtain hc | ⟨r, -, hr⟩ := bind_eq_error.mp h
  · obtain ⟨hge, rfl⟩ := checkReg_eq_error.mp hc
    exact .register a ha hge
  · exact hf r hr

/-- The same where nothing after the check raises. -/
theorem Raisable.of_checkReg_pure {α : Type} {f : Fin 8 → α} (ha : a ∈ i.regOperands)
    (h : (do let r ← checkReg a; return f r) = .error c) : Raisable i s c :=
  .of_checkReg_bind ha h fun _ hr => by cases hr

theorem Raisable.of_checkReg_checkReg {α : Type} {f : Fin 8 → Fin 8 → α} (hab : i.regOperands = [a, b])
    (h : (do let ra ← checkReg a; let rb ← checkReg b; return f ra rb) = .error c) : Raisable i s c :=
  .of_checkReg_bind (by simp [hab]) h fun _ hr => .of_checkReg_pure (by simp [hab]) hr

theorem Raisable.of_checkUnderflow_bind {α : Type} {f : Unit → Except Condition α}
    (hi : i = .ret ∨ ∃ a, i = .pop a) (h : checkUnderflow s >>= f = .error c) (hf : f () ≠ .error c) :
    Raisable i s c := by
  obtain hc | ⟨u, -, hu⟩ := bind_eq_error.mp h
  · obtain ⟨hcheck, hge, rfl⟩ := checkUnderflow_eq_error.mp hc
    exact .underflow hi hcheck hge
  · exact absurd hu hf

theorem Raisable.of_jumpIf {m : Mnemonic} {taken : Bool} (ha : a ∈ i.regOperands)
    (h : jumpIf m taken a s = .error c) : Raisable i s c := by
  cases taken with
  | true => exact .of_checkReg_pure ha h
  | false => cases h

theorem raisable_of_handlerOf (h : handlerOf i s = .error c) : Raisable i s c := by
  unfold handlerOf at h
  cases i with
  | nop | hlt => cases h
  | ret => exact .of_checkUnderflow_bind (.inl rfl) h (by simp)
  | pop a =>
    exact .of_checkReg_bind (List.mem_singleton_self a) h fun r hr =>
      .of_checkUnderflow_bind (.inr ⟨a, rfl⟩) hr (by simp)
  | push a => exact .of_checkReg_bind (List.mem_singleton_self a) h fun r hr => by simp at hr
  | call a =>
    refine .of_checkReg_bind (List.mem_singleton_self a) h fun r hr => ?_
    obtain hret | ⟨v, -, hv⟩ := bind_eq_error.mp hr
    · obtain ⟨hge, rfl⟩ := returnAddress_eq_error.mp hret
      exact .returnAddress a rfl hge
    · simp at hv
  | jeq a | jne a => exact .of_jumpIf (List.mem_singleton_self a) h
  | ld a b =>
    refine .of_checkReg_bind (List.mem_cons_self ..) h fun ra hra => ?_
    exact .of_checkReg_bind (List.mem_cons_of_mem a (List.mem_singleton_self b)) hra fun rb hrb => by simp at hrb
  | pra a | prn a | jmp a | inc a | dec a | not a | ldi a _ =>
    exact .of_checkReg_pure (List.mem_singleton_self a) h
  | add a b | mul a b | cmp a b | and a b | xor a b => exact .of_checkReg_checkReg rfl h

theorem Raisable.legal (h : Raisable i s c) : c.legal s.config := by
  cases h with
  | register a ha hge => exact ⟨hge, Nat.le_of_lt_succ a.isLt⟩
  | returnAddress a hi hge => exact hge
  | underflow hi hc hge => exact ⟨hc, hge, Nat.le_of_lt_succ (sp s).isLt⟩

theorem fetch_error_legal (h : fetch s = .error c) : c.legal s.config := by
  obtain ⟨hpc, rfl⟩ | ⟨-, hnone, rfl⟩ | ⟨-, m, k, -, -, hge, rfl⟩ := fetch_error_cases h
  · exact hpc
  · split
    · next hAlu => exact ⟨hnone, hAlu⟩
    · next hAlu => exact ⟨hnone, by simpa using hAlu⟩
  · exact hge

end Raising

/-! ### The invariant -/

theorem State.Inv.raise {s : State} {c : Condition} (hs : s.Inv) (hc : c.legal s.config) : (raise c s).Inv :=
  ⟨hs.mem_wf, hs.pc_range, hs.flags_legal, hc⟩

/-- From a fetched instruction the end of the step is at most three past pc (40_execution_cycle.md R87, D7). -/
theorem Completes.autoAdvance_pc_le {i : Instr} {s u : State} (h : Completes i s u) (hpc : s.pc < 256) :
    (autoAdvance i.mnemonic u).pc ≤ 258 := by
  have hcount : (fieldsOf i.mnemonic).operandCount ≤ 2 := operandCount_le_two _
  rw [autoAdvance_pc]
  cases hi : (fieldsOf i.mnemonic).setsPc with
  | false =>
    have hu := h.pc_of_setsPc_false hi
    split <;> omega
  | true =>
    have hu := h.pc_of_setsPc_true hi
    simp only [Bool.true_eq_false, false_and, if_false]
    omega

theorem Completes.inv_autoAdvance {i : Instr} {s u : State} (h : Completes i s u) (hs : s.Inv) (hpc : s.pc < 256) :
    (autoAdvance i.mnemonic u).Inv where
  mem_wf := by simpa using h.mem_wf hs.mem_wf
  pc_range := h.autoAdvance_pc_le hpc
  flags_legal := by
    rw [autoAdvance_fl]
    obtain hu | ⟨a, b, x, y, -, hu⟩ := h.fl
    · exact hu ▸ hs.flags_legal
    · exact hu ▸ compareFlags_legal x y
  status_legal := by
    rw [autoAdvance_status, autoAdvance_config, h.config]
    obtain ⟨-, hu⟩ | ⟨-, hu⟩ := h.status
    · exact hu ▸ hs.status_legal
    · exact hu ▸ trivial

/-- Settles O17, by the update a completed handler makes, or the condition the fetch or the handler raises. -/
theorem stepKeepsInvariant : Obligations.StepKeepsInvariant := by
  intro s t hs h
  obtain ⟨-, ⟨i, hi, hexec⟩ | ⟨c, hc, rfl⟩⟩ := step_cases h
  · obtain ⟨hpc, -⟩ := fetch_eq_ok.mp hi
    obtain ⟨u, hu, rfl⟩ | ⟨c, hc, rfl⟩ := exec_completes_or_raises hexec
    · exact hu.inv_autoAdvance hs hpc
    · exact hs.raise (raisable_of_handlerOf hc).legal
  · exact hs.raise (fetch_error_legal hc)

/-! ### Frames -/

/-- Settles O15, by the status each completed handler leaves. -/
theorem statusFrame : Obligations.StatusFrame := by
  refine ⟨fun s t i hs h => ?_, fun s t h => ?_⟩
  · obtain ⟨u, hu, rfl⟩ | ⟨c, -, rfl⟩ := exec_completes_or_raises h
    · obtain ⟨hi, hst⟩ | ⟨hi, hst⟩ := hu.status
      · exact .inl ⟨hi, by simp [hst, hs]⟩
      · exact .inr (.inl ⟨hi, by simp [hst]⟩)
    · exact .inr (.inr ⟨c, rfl⟩)
  · obtain ⟨-, ⟨i, -, hexec⟩ | ⟨c, -, rfl⟩⟩ := step_cases h
    · obtain ⟨u, hu, rfl⟩ | ⟨c, -, rfl⟩ := exec_completes_or_raises hexec
      · simp [hu.config]
      · rfl
    · rfl

/-- Settles O16: the handler leaves pc alone, and the auto-advance adds the encoded length. -/
theorem autoAdvancePassesTheInstruction : Obligations.AutoAdvancePassesTheInstruction := by
  intro s t i hi hs h ht
  obtain ⟨u, hu, rfl⟩ | ⟨c, -, rfl⟩ := exec_completes_or_raises h
  · rw [autoAdvance_status] at ht
    calc (autoAdvance i.mnemonic u).pc
      _ = u.pc + (fieldsOf i.mnemonic).operandCount + 1 := by
        rw [autoAdvance_pc, if_pos ⟨hi, ht⟩]
      _ = s.pc + (encode i).length := by
        rw [hu.pc_of_setsPc_false hi, length_encode]; omega
  · simp at ht

/-- Settles O20, by the output of each completed handler. -/
theorem outputsOnlyAppended : Obligations.OutputsOnlyAppended := by
  intro s t i h
  obtain ⟨u, hu, rfl⟩ | ⟨c, -, rfl⟩ := exec_completes_or_raises h
  · rw [autoAdvance_out, autoAdvance_diag]
    exact ⟨hu.out, hu.diag⟩
  · exact ⟨.inl rfl, .inl rfl⟩

/-- Settles O22, by the registers each completed handler writes. -/
theorem registerFrame : Obligations.RegisterFrame := by
  intro s t i r h hr
  obtain ⟨u, hu, rfl⟩ | ⟨c, -, rfl⟩ := exec_completes_or_raises h
  · rw [autoAdvance_regs, hu.regs hr]
  · rfl

/-! ### One step of a run -/

theorem step_of_fetch_ok {s : State} {i : Instr} (hs : s.status = .running) (hi : fetch s = .ok i) :
    step s = exec i s := by
  simp [step, hs, hi]

theorem step_of_fetch_error {s : State} {c : Condition} (hs : s.status = .running) (hc : fetch s = .error c) :
    step s = .next (raise c s) := by
  simp [step, hs, hc]

theorem runFor_succ_of_step {k : Nat} {s t : State} (h : step s = .next t) : runFor (k + 1) s = runFor k t := by
  simp [runFor, h]

/-- Outside Running a run shows the ending the status is, under every bound (70_reset_and_hazards.md R239). -/
theorem runFor_of_not_running {s : State} (k : Nat) (hs : s.status ≠ .running) : runFor k s = verdictOf s := by
  cases k with
  | zero => rfl
  | succ k =>
    cases hst : s.status with
    | running => exact absurd hst hs
    | halted => simp [runFor, step, hst]
    | faulted c => simp [runFor, step, hst]

/-! ### Non-interference of the diagnostic channel and of FL's bits but E -/

/-- States a run does not tell apart: they agree in everything but the diagnostic channel and FL, and in FL's Equal
bit (10_state.md R26, R31). -/
def Alike (s s' : State) : Prop :=
  ∃ (f : Byte) (d : List Byte), flagE f = flagE s.fl ∧ s' = { s with fl := f, diag := d }

/-- Handler outcomes a run does not tell apart: the same condition, or states that are alike. -/
inductive AlikeOutcome : Except Condition State → Except Condition State → Prop
  | completes {u u' : State} (h : Alike u u') : AlikeOutcome (.ok u) (.ok u')
  | raises (c : Condition) : AlikeOutcome (.error c) (.error c)

theorem AlikeOutcome.bind {α : Type} (x : Except Condition α) {f g : α → Except Condition State}
    (h : ∀ a, AlikeOutcome (f a) (g a)) : AlikeOutcome (x >>= f) (x >>= g) := by
  cases x with
  | ok a => exact h a
  | error c => exact .raises c

theorem Alike.jumpIf {s s' : State} (h : Alike s s') (m : Mnemonic) (taken : Bool) (a : Byte) :
    AlikeOutcome (jumpIf m taken a s) (jumpIf m taken a s') := by
  obtain ⟨f, d, hf, rfl⟩ := h
  cases taken with
  | true => exact .bind (checkReg a) fun r => .completes ⟨f, d, hf, rfl⟩
  | false => exact .completes ⟨f, d, hf, rfl⟩

/-- From states that are alike a handler has outcomes that are alike: all but CMP and PRN leave FL and the diagnostic
channel as they are, and CMP writes FL from the registers alone. -/
theorem Alike.handlerOf {s s' : State} (h : Alike s s') (i : Instr) :
    AlikeOutcome (handlerOf i s) (handlerOf i s') := by
  have hE : flagE s'.fl = flagE s.fl := by obtain ⟨f, d, hf, rfl⟩ := h; exact hf
  obtain ⟨f, d, hf, rfl⟩ := id h
  cases i with
  | nop => exact .completes h
  | hlt => exact .completes ⟨f, d, hf, rfl⟩
  | ret =>
    exact .bind (checkUnderflow s) fun _ => .bind (readTop s) fun v => .completes ⟨f, d, hf, rfl⟩
  | prn a => exact .bind (checkReg a) fun r => .completes ⟨f, d ++ [readReg r s], hf, rfl⟩
  | push a =>
    refine .bind (checkReg a) fun r => ?_
    rw [writeTop_eq, writeTop_eq]
    exact .completes ⟨f, d, hf, rfl⟩
  | pop a =>
    exact .bind (checkReg a) fun r => .bind (checkUnderflow s) fun _ => .bind (readTop s) fun v =>
      .completes ⟨f, d, hf, rfl⟩
  | call a =>
    refine .bind (checkReg a) fun r => .bind (returnAddress s) fun v => ?_
    rw [writeTop_eq, writeTop_eq]
    exact .completes ⟨f, d, hf, rfl⟩
  | jeq a =>
    simp only [Machine.handlerOf, hE]
    exact h.jumpIf .jeq _ a
  | jne a =>
    simp only [Machine.handlerOf, hE]
    exact h.jumpIf .jne _ a
  | ld a b =>
    exact .bind (checkReg a) fun ra => .bind (checkReg b) fun rb => .bind (memRead (readReg rb s).toNat s) fun v =>
      .completes ⟨f, d, hf, rfl⟩
  | cmp a b => exact .bind (checkReg a) fun ra => .bind (checkReg b) fun rb => .completes ⟨_, d, rfl, rfl⟩
  | pra a | jmp a | inc a | dec a | not a | ldi a _ =>
    exact .bind (checkReg a) fun r => .completes ⟨f, d, hf, rfl⟩
  | add a b | mul a b | and a b | xor a b =>
    exact .bind (checkReg a) fun ra => .bind (checkReg b) fun rb => .completes ⟨f, d, hf, rfl⟩

theorem Alike.raise {s s' : State} (h : Alike s s') (c : Condition) : Alike (raise c s) (raise c s') := by
  obtain ⟨f, d, hf, rfl⟩ := h
  exact ⟨f, d, hf, rfl⟩

theorem Alike.autoAdvance {s s' : State} (h : Alike s s') (m : Mnemonic) :
    Alike (autoAdvance m s) (autoAdvance m s') := by
  obtain ⟨f, d, hf, rfl⟩ := h
  refine ⟨f, d, by rwa [autoAdvance_fl], ?_⟩
  simp only [Machine.autoAdvance]
  split <;> rfl

theorem AlikeOutcome.endCycle {x x' : Except Condition State} {s s' t : State} {m : Mnemonic}
    (hx : AlikeOutcome x x') (h : Alike s s') (ht : endCycle m s x = .next t) :
    ∃ t', endCycle m s' x' = .next t' ∧ Alike t t' := by
  cases hx with
  | completes hu => cases ht; exact ⟨_, rfl, hu.autoAdvance m⟩
  | raises c => cases ht; exact ⟨_, rfl, h.raise c⟩

theorem Alike.exec {s s' t : State} {i : Instr} (h : Alike s s') (ht : exec i s = .next t) :
    ∃ t', exec i s' = .next t' ∧ Alike t t' := by
  rw [exec_eq_endCycle] at ht ⊢
  exact (h.handlerOf i).endCycle h ht

/-- The fetch reads pc and memory, and nothing else (40_execution_cycle.md R81, R85). -/
theorem Alike.fetch_eq {s s' : State} (h : Alike s s') : fetch s' = fetch s := by
  obtain ⟨f, d, -, rfl⟩ := h
  rfl

theorem Alike.status_eq {s s' : State} (h : Alike s s') : s'.status = s.status := by
  obtain ⟨f, d, -, rfl⟩ := h
  rfl

theorem Alike.verdictOf_eq {s s' : State} (h : Alike s s') : verdictOf s' = verdictOf s := by
  obtain ⟨f, d, -, rfl⟩ := h
  rfl

theorem Alike.step {s s' t : State} (h : Alike s s') (ht : step s = .next t) :
    ∃ t', step s' = .next t' ∧ Alike t t' := by
  obtain ⟨hs, ⟨i, hi, hexec⟩ | ⟨c, hc, rfl⟩⟩ := step_cases ht
  · rw [step_of_fetch_ok (h.status_eq.trans hs) (h.fetch_eq.trans hi)]
    exact h.exec hexec
  · exact ⟨_, step_of_fetch_error (h.status_eq.trans hs) (h.fetch_eq.trans hc), h.raise c⟩

/-- Runs from states that are alike show the same verdict under every bound. -/
theorem Alike.runFor_eq {s s' : State} (h : Alike s s') (k : Nat) : runFor k s' = runFor k s := by
  induction k generalizing s s' with
  | zero => exact h.verdictOf_eq
  | succ k ih =>
    by_cases hs : s.status = .running
    · obtain ⟨t, ht⟩ := step_is_next hs
      obtain ⟨t', ht', hAlike⟩ := h.step ht
      rw [runFor_succ_of_step ht, runFor_succ_of_step ht', ih hAlike]
    · have hs' : s'.status ≠ .running := h.status_eq ▸ hs
      rw [runFor_of_not_running _ hs, runFor_of_not_running _ hs', h.verdictOf_eq]

/-- Settles O23: states that differ in the diagnostic channel alone are alike. -/
theorem diagnosticChannelIsUnobserved : Obligations.DiagnosticChannelIsUnobserved :=
  fun k s d => Alike.runFor_eq ⟨s.fl, d, rfl, rfl⟩ k

/-- Settles O24: states that differ in FL's other bits alone are alike. -/
theorem onlyEqualFlagIsObserved : Obligations.OnlyEqualFlagIsObserved :=
  fun k s f hf => Alike.runFor_eq ⟨f, s.diag, hf, rfl⟩ k

/-! ### The register file -/

theorem getReg_of_checkReg {i : Byte} {r : Fin 8} (s : State) (h : checkReg i = .ok r) :
    getReg i s = .ok (readReg r s) := by
  simp [getReg, h]

theorem setReg_of_checkReg {i : Byte} {r : Fin 8} (v : Int) (s : State) (h : checkReg i = .ok r) :
    setReg i v s = .ok (writeReg r v s) := by
  simp [setReg, h]

theorem getReg_of_ge {i : Byte} (s : State) (h : 8 ≤ i.toNat) : getReg i s = .error (.outOfBounds .reg i.toNat) := by
  simp [getReg, checkReg_of_ge h]

theorem setReg_of_ge {i : Byte} (v : Int) (s : State) (h : 8 ≤ i.toNat) :
    setReg i v s = .error (.outOfBounds .reg i.toNat) := by
  simp [setReg, checkReg_of_ge h]

/-- A register write stores its value modulo 256, for any integer (10_state.md R22). -/
theorem truncate_toNat_eq_emod (v : Int) : ((truncate v).toNat : Int) = v % 256 := by
  rw [truncate, BitVec.toNat_ofInt]
  omega

/-- A write of one register is not seen at another index, in range or not (10_state.md R20, R21). -/
theorem getReg_writeReg_of_ne {i j : Byte} {r : Fin 8} (v : Int) (s : State) (hi : i.toNat = r.val) (hij : j ≠ i) :
    getReg j (writeReg r v s) = getReg j s := by
  cases hj : checkReg j with
  | error c => simp [getReg, hj]
  | ok q =>
    have hq : j.toNat = q.val := checkReg_eq_ok.mp hj
    have hqr : q ≠ r := by
      rintro rfl
      exact hij (BitVec.eq_of_toNat_eq (hq.trans hi.symm))
    rw [getReg_of_checkReg _ hj, getReg_of_checkReg _ hj, readReg_writeReg, if_neg hqr]

/-- Settles O27, by the index check of either accessor and the register read back after the write. -/
theorem registerFileAccessors : Obligations.RegisterFileAccessors := by
  refine ⟨fun s i v hi => ⟨getReg_of_ge s hi, setReg_of_ge v s hi⟩, fun s i v hi => ?_⟩
  have hcheck : checkReg i = .ok ⟨i.toNat, hi⟩ := checkReg_of_eq rfl
  refine ⟨writeReg ⟨i.toNat, hi⟩ v s, truncate v, setReg_of_checkReg v s hcheck, ?_, truncate_toNat_eq_emod v,
    fun j hj => getReg_writeReg_of_ne v s rfl hj, rfl⟩
  rw [getReg_of_checkReg _ hcheck, readReg_writeReg_same]

end Sys2Proof.Machine
end

section
/-! SUPPORT AND PROOFS for the statements about memory (20_memory.md): what an instruction stores, what a memory access
reads back, and what an operand fetch past the top of memory raises. -/

namespace Sys2Proof.Machine

open Sys2Proof.Claims

/-! ### What an instruction stores -/

/-- A completed handler leaves memory as it was, or makes the one store of PUSH and CALL, at the address SP holds after
its decrement (43_stack.md R150). -/
theorem Completes.mem {i : Instr} {s u : State} (h : Completes i s u) :
    u.mem = s.mem ∨ storesToMemory i = true ∧ ∃ v, u.mem = writeCell s.mem (sp (decSp s)).toNat v := by
  cases h with
  | push v => exact .inr ⟨rfl, v, rfl⟩
  | call v target => exact .inr ⟨rfl, v, rfl⟩
  | _ => exact .inl rfl

/-- Executing an instruction leaves memory as it was, or makes the one store of PUSH and CALL: the auto-advance and a
raise store nothing. -/
theorem exec_mem {i : Instr} {s t : State} (h : exec i s = .next t) :
    t.mem = s.mem ∨ storesToMemory i = true ∧ ∃ v, t.mem = writeCell s.mem (sp (decSp s)).toNat v := by
  obtain ⟨u, hu, rfl⟩ | ⟨c, -, rfl⟩ := exec_completes_or_raises h
  · rw [autoAdvance_mem]
    exact hu.mem
  · exact .inl rfl

/-- Settles O21, by the one store an instruction can make and the read of another address after it. -/
theorem memoryFrame : Obligations.MemoryFrame := by
  refine ⟨fun s t i hi h a => ?_, fun s t i _ h a ha => ?_⟩
  · obtain hmem | ⟨hstores, -⟩ := exec_mem h
    · rw [hmem]
    · exact absurd hstores (by simp [hi])
  · obtain hmem | ⟨-, v, hmem⟩ := exec_mem h
    · rw [hmem]
    · rw [hmem, readCell_writeCell_other _ v ha]

/-! ### The memory accessors -/

theorem memRead_memWrite_same {a : Nat} {v : Byte} {s t : State} (h : memWrite a v s = .ok t) :
    memRead a t = .ok v := by
  obtain ⟨ha, rfl⟩ := memWrite_eq_ok.mp h
  exact memRead_eq_ok.mpr ⟨ha, (readCell_writeCell_same s.mem a v).symm⟩

/-- A write of one address is not seen at another, in range or not (20_memory.md R41). -/
theorem memRead_memWrite_of_ne {a b : Nat} {v : Byte} {s t : State} (h : memWrite a v s = .ok t) (hb : b ≠ a) :
    memRead b t = memRead b s := by
  obtain ⟨-, rfl⟩ := memWrite_eq_ok.mp h
  simp [memRead, readCell_writeCell_other s.mem v hb]

/-- Settles O26, by the range check of either accessor and the reads after a write. -/
theorem memoryAccessors : Obligations.MemoryAccessors := by
  refine ⟨fun s a v ha => ⟨memRead_eq_error.mpr ⟨ha, rfl⟩, memWrite_eq_error.mpr ⟨ha, rfl⟩⟩, fun s a v ha => ?_⟩
  have hwrite : memWrite a v s = .ok { s with mem := writeCell s.mem a v } :=
    memWrite_eq_ok.mpr ⟨Nat.lt_succ_of_le ha, rfl⟩
  exact ⟨_, hwrite, memRead_memWrite_same hwrite, fun b _ hb => memRead_memWrite_of_ne hwrite hb, rfl⟩

/-! ### Operand bytes past the top of memory -/

/-- After a defined opcode byte the fetch is the fetch of its operands (40_execution_cycle.md R85). -/
theorem fetch_of_opcodeByte {s : State} {m : Mnemonic} (hpc : s.pc < 256)
    (hop : readCell s.mem s.pc = opcodeByte m) :
    fetch s = (fetchOperand (fieldsOf m).operandCount 1 s >>= fun a =>
      fetchOperand (fieldsOf m).operandCount 2 s >>= fun b => pure (build m a b)) := by
  have hread : memRead s.pc s = .ok (opcodeByte m) := memRead_eq_ok.mpr ⟨hpc, hop.symm⟩
  have hclass : classifyAt (opcodeByte m) s = .ok m := classifyAt_eq_ok.mpr rfl
  simp only [fetch, hread, hclass, ok_bind, fieldsOf]

/-- At pc 255 the first operand byte is the missing one; below 255 it is the second, with pc at 254. Either is at
address 256 (40_execution_cycle.md R85, D5). -/
theorem fetch_of_missing_operand {s : State} {m : Mnemonic} (hpc : s.pc < 256)
    (hop : readCell s.mem s.pc = opcodeByte m) (hend : 255 < s.pc + (fieldsOf m).operandCount) :
    fetch s = .error (.outOfBounds .mem 256) := by
  have hcount : (fieldsOf m).operandCount ≤ 2 := operandCount_le_two m
  rw [fetch_of_opcodeByte hpc hop]
  obtain hlast | hbelow : s.pc = 255 ∨ s.pc < 255 := by omega
  · have hfirst : fetchOperand (fieldsOf m).operandCount 1 s = .error (.outOfBounds .mem 256) :=
      fetchOperand_eq_error.mpr ⟨by omega, by omega, by rw [hlast]⟩
    rw [hfirst, error_bind]
  · have hfirst : fetchOperand (fieldsOf m).operandCount 1 s = .ok (readCell s.mem (s.pc + 1)) :=
      fetchOperand_eq_ok.mpr (.inl ⟨by omega, by omega, rfl⟩)
    have hsecond : fetchOperand (fieldsOf m).operandCount 2 s = .error (.outOfBounds .mem 256) :=
      fetchOperand_eq_error.mpr ⟨by omega, by omega, by rw [show s.pc = 254 by omega]⟩
    rw [hfirst, ok_bind, hsecond, error_bind]

/-- Settles O11, by the condition the fetch of the missing operand raises. -/
theorem operandFetchAboveMemoryRaises : Obligations.OperandFetchAboveMemoryRaises :=
  fun _ _ hs hpc hop hend => step_of_fetch_error hs (fetch_of_missing_operand (Nat.lt_succ_of_le hpc) hop hend)

end Sys2Proof.Machine
end

section
/-! SUPPORT AND PROOFS for the statements about the encoding (30_encoding.md): the one equivalence between a decoded
list of bytes and its opcode byte, operand bytes and rest; from it both directions of the round trip. -/

namespace Sys2Proof

open Machine

/-! ### Instructions and their operand bytes -/

/-- An instruction is its mnemonic and its operand bytes; where an operand is missing, its value does not matter. -/
theorem build_mnemonic_operands (i : Instr) : build i.mnemonic (i.operands.getD 0 0) (i.operands.getD 1 0) = i := by
  cases i <;> rfl

/-- The built instruction keeps exactly the operands its format has (30_encoding.md R63). -/
theorem operands_build (m : Mnemonic) (a b : Byte) : (build m a b).operands = [a, b].take (fieldsOf m).operandCount := by
  cases m <;> rfl

/-- Built from operand bytes in the number of its format, an instruction has those operand bytes (R63). -/
theorem operands_build_getD {m : Mnemonic} {ops : List Byte} (h : ops.length = (fieldsOf m).operandCount) :
    (build m (ops.getD 0 0) (ops.getD 1 0)).operands = ops := by
  rw [operands_build, ← h]
  match ops with
  | [] | [_] | [_, _] => rfl
  | _ :: _ :: _ :: _ => have := operandCount_le_two m; simp at h; omega

/-! ### The decoder -/

/-- After a defined opcode byte, the decoder takes as many operand bytes as the opcode's count (R60, R61). -/
theorem decode_opcodeByte_cons {m : Mnemonic} {ops : List Byte} (h : ops.length = (fieldsOf m).operandCount)
    (rest : List Byte) :
    decode (opcodeByte m :: (ops ++ rest)) = .ok (build m (ops.getD 0 0) (ops.getD 1 0), rest) := by
  unfold fieldsOf at h
  match ops with
  | [] | [_] | [_, _] => simp [decode, ← h]
  | _ :: _ :: _ :: _ => have := operandCount_le_two m; simp [fieldsOf] at h this; omega

/-- With fewer bytes than the opcode's count after it, the decoder names the first one missing (R60, R61). -/
theorem decode_opcodeByte_cons_of_lt {m : Mnemonic} {tail : List Byte}
    (h : tail.length < (fieldsOf m).operandCount) :
    decode (opcodeByte m :: tail) = .error (.missingOperand (opcodeByte m) (tail.length + 1)) := by
  have hle : (fieldsOf m).operandCount ≤ 2 := operandCount_le_two m
  unfold fieldsOf at h hle
  match tail with
  | [] => simp [decode, Nat.ne_zero_of_lt h]
  | [_] =>
    have hone : 1 < (decodeFields (opcodeByte m)).operandCount := h
    simp [decode, Nat.ne_zero_of_lt hone, hone.ne']
  | _ :: _ :: _ => simp at h; omega

/-- Everything the decoder can answer when it accepts: the bytes are a defined opcode byte, the operand bytes of its
format and the rest (30_encoding.md R60, R63). -/
theorem decode_eq_ok {bytes rest : List Byte} {i : Instr} : decode bytes = .ok (i, rest) ↔
    ∃ m ops, ops.length = (fieldsOf m).operandCount ∧ bytes = opcodeByte m :: (ops ++ rest) ∧
      i = build m (ops.getD 0 0) (ops.getD 1 0) := by
  constructor
  · intro h
    cases bytes with
    | nil => cases h
    | cons op tail =>
      cases hop : classify op with
      | error e => simp [decode, hop] at h
      | ok m =>
        obtain rfl := classify_eq_ok.mp hop
        obtain hlt | hle := Nat.lt_or_ge tail.length (fieldsOf m).operandCount
        · simp [decode_opcodeByte_cons_of_lt hlt] at h
        · have hlen : (tail.take (fieldsOf m).operandCount).length = (fieldsOf m).operandCount :=
            List.length_take_of_le hle
          have htail : decode (opcodeByte m :: tail) = _ :=
            List.take_append_drop (fieldsOf m).operandCount tail ▸ decode_opcodeByte_cons hlen _
          cases h.symm.trans htail
          exact ⟨m, _, hlen, by rw [List.take_append_drop], rfl⟩
  · rintro ⟨m, ops, hlen, rfl, rfl⟩
    exact decode_opcodeByte_cons hlen rest

/-! ### The round trip -/

/-- Settles O1: the operand bytes of an instruction are in the number its opcode gives, and the instruction is built
back from them. -/
theorem decodeEncodeRoundTrip : Obligations.DecodeEncodeRoundTrip := fun i _ =>
  decode_eq_ok.mpr ⟨i.mnemonic, i.operands, (operandCount_opcodeByte i).symm, rfl, (build_mnemonic_operands i).symm⟩

/-- Settles O2: what the decoder builds has the opcode byte and the operand bytes that were read. -/
theorem decodedBytesAreTheEncoding : Obligations.DecodedBytesAreTheEncoding := by
  intro bytes rest i h
  obtain ⟨m, ops, hlen, rfl, rfl⟩ := decode_eq_ok.mp h
  rw [encode, mnemonic_build, operands_build_getD hlen, List.cons_append]

/-! ### The fields of an opcode byte -/

/-- Settles O3: the bits 7..6 of a byte are its quotient by 64, and bit `k` is the parity of its quotient by 2 ^ k. -/
theorem decoderTripleOnEveryByte : Obligations.DecoderTripleOnEveryByte := by
  intro op
  have hcount : (op.extractLsb 7 6).toNat = op.toNat / 64 := by
    rw [BitVec.extractLsb_toNat, Nat.shiftRight_eq_div_pow]
    omega
  have hbit (k : Nat) : op.getLsbD k = decide (op.toNat / 2 ^ k % 2 = 1) := Nat.testBit_eq_decide_div_mod_eq
  rw [decodeFields, hcount, hbit 5, hbit 4, show 2 ^ 5 = 32 from rfl, show 2 ^ 4 = 16 from rfl]

/-- Distinct mnemonics have distinct opcode bytes: a byte names one mnemonic (30_encoding.md R66, R67). -/
theorem opcodeByte_injective : Function.Injective opcodeByte := fun m n h => by
  simpa using congrArg mnemonicOf h

theorem isAlu_fieldsOf (m : Mnemonic) :
    (fieldsOf m).isAlu = true ↔ m ∈ [.add, .mul, .and, .xor, .not, .inc, .dec, .cmp] := by
  cases m <;> simp

theorem setsPc_fieldsOf (m : Mnemonic) : (fieldsOf m).setsPc = true ↔ m ∈ [.call, .ret, .jmp, .jeq, .jne] := by
  cases m <;> simp

/-- Settles O4, by the triple of each defined opcode byte and the mnemonic read back from it. -/
theorem opcodeFieldsAgreeWithSemantics : Obligations.OpcodeFieldsAgreeWithSemantics :=
  ⟨operandCount_opcodeByte, isAlu_fieldsOf, setsPc_fieldsOf, rfl, rfl, rfl, fun _ _ h => opcodeByte_injective h⟩

end Sys2Proof
end

section
/-! SUPPORT AND PROOFS for the statements about the execution cycle (40_execution_cycle.md): when a step is defined, what
the fetch of the opcode byte raises, and the end of a cycle whose handler completed. -/

namespace Sys2Proof.Machine

open Sys2Proof.Claims

/-! ### When a step is defined -/

/-- Settles O12: a step that answers starts from Running, and from Running either the fetch or the handler gives the
next state. -/
theorem stepDefinedExactlyWhenRunning : Obligations.StepDefinedExactlyWhenRunning := by
  intro s
  constructor
  · rintro ⟨t, ht⟩
    obtain ⟨hs, -⟩ := step_cases ht
    exact hs
  · exact step_is_next

/-! ### The end of a cycle whose handler completed -/

theorem exec_of_handlerOf_ok {i : Instr} {s u : State} (h : handlerOf i s = .ok u) :
    exec i s = .next (autoAdvance i.mnemonic u) := by
  rw [exec_eq_endCycle, h, endCycle]

theorem autoAdvance_of_setsPc_true {m : Mnemonic} (s : State) (hm : (fieldsOf m).setsPc = true) :
    autoAdvance m s = s := by
  simp [autoAdvance, hm]

theorem autoAdvance_of_running {m : Mnemonic} {s : State} (hm : (fieldsOf m).setsPc = false)
    (hs : s.status = .running) : autoAdvance m s = setPc (s.pc + (fieldsOf m).operandCount + 1) s := by
  simp [autoAdvance, hm, hs]

/-- NOP makes the auto-advance and nothing else (45_system.md R190). -/
theorem exec_nop_of_running {s : State} (hs : s.status = .running) : exec .nop s = .next (setPc (s.pc + 1) s) := by
  have hexec : exec .nop s = .next (autoAdvance .nop s) := exec_of_handlerOf_ok rfl
  rw [hexec, autoAdvance_of_running (by simp) hs]
  simp only [fieldsOf_nop, Nat.add_zero]

/-- A conditional jump that is not taken makes its own advance, and no auto-advance follows
(40_execution_cycle.md R88). -/
theorem exec_of_jumpIf_false {i : Instr} {a : Byte} {s : State} (hi : (fieldsOf i.mnemonic).setsPc = true)
    (h : handlerOf i s = jumpIf i.mnemonic false a s) : exec i s = .next (fallThrough i.mnemonic s) := by
  have hu : handlerOf i s = .ok (fallThrough i.mnemonic s) := h.trans (jumpIf_eq_ok.mpr (.inr ⟨rfl, rfl⟩))
  rw [exec_of_handlerOf_ok hu, autoAdvance_of_setsPc_true _ hi]

theorem exec_jeq_of_not_flagE {s : State} (a : Byte) (hE : flagE s.fl = false) :
    exec (.jeq a) s = .next (fallThrough .jeq s) :=
  exec_of_jumpIf_false (a := a) (by simp [Instr.mnemonic]) (by simp [handlerOf, hE, Instr.mnemonic])

theorem exec_jne_of_flagE {s : State} (a : Byte) (hE : flagE s.fl = true) :
    exec (.jne a) s = .next (fallThrough .jne s) :=
  exec_of_jumpIf_false (a := a) (by simp [Instr.mnemonic]) (by simp [handlerOf, hE, Instr.mnemonic])

/-- Settles O58, by the advance that the handler of a jump not taken makes itself. -/
theorem conditionalJumpsFallThrough : Obligations.ConditionalJumpsFallThrough :=
  ⟨congrArg Fields.setsPc fieldsOf_jeq, congrArg Fields.setsPc fieldsOf_jne,
    fun _ a hE => exec_jeq_of_not_flagE a hE, fun _ a hE => exec_jne_of_flagE a hE,
    congrArg (·.operandCount + 1) fieldsOf_jeq, congrArg (·.operandCount + 1) fieldsOf_jne⟩

/-! ### The fetch of the opcode byte -/

theorem fetch_of_pc_ge {s : State} (hpc : 256 ≤ s.pc) : fetch s = .error (.outOfBounds .mem s.pc) :=
  bind_eq_error.mpr (.inl (memRead_eq_error.mpr ⟨hpc, rfl⟩))

theorem fetch_nop {s : State} (hpc : s.pc < 256) (hop : readCell s.mem s.pc = opcodeByte .nop) :
    fetch s = .ok .nop := by
  rw [fetch_of_opcodeByte hpc hop, fieldsOf_nop]
  rfl

/-- The opcode byte of a fetched instruction is the byte at pc (40_execution_cycle.md R81). -/
theorem opcode_of_fetch_eq_ok {s : State} {i : Instr} (h : fetch s = .ok i) :
    s.pc < 256 ∧ readCell s.mem s.pc = opcodeByte i.mnemonic := by
  obtain ⟨hpc, m, a, b, hop, -, -, rfl⟩ := fetch_eq_ok.mp h
  exact ⟨hpc, by rw [hop, mnemonic_build]⟩

/-- Settles O8, by the range check of the opcode read, the opcode of what is fetched, and NOP's advance to 256. -/
theorem opcodeIsFetchedAtPc : Obligations.OpcodeIsFetchedAtPc := by
  refine ⟨fun s hs hpc => step_of_fetch_error hs (fetch_of_pc_ge hpc), fun s i h => ?_, fun s hs hpc hop => ⟨?_, ?_⟩⟩
  · obtain ⟨hpc, hop⟩ := opcode_of_fetch_eq_ok h
    exact ⟨Nat.le_of_lt_succ hpc, hop⟩
  · have hfetch : fetch s = .ok .nop := fetch_nop (by omega) (hpc ▸ hop)
    rw [step_of_fetch_ok hs hfetch, exec_nop_of_running hs, hpc]
    rfl
  · exact step_of_fetch_error hs (fetch_of_pc_ge (Nat.le_refl 256))

/-! ### Undefined opcode bytes -/

/-- The eight ALU bytes are the defined opcode bytes with the ALU flag (30_encoding.md R66). -/
theorem opcodeByte_mem_aluOps (m : Mnemonic) : opcodeByte m ∈ aluOps ↔ (fieldsOf m).isAlu = true := by
  cases m <;> decide

/-- The thirteen other bytes are the defined opcode bytes without it (30_encoding.md R66). -/
theorem opcodeByte_mem_nonAluOps (m : Mnemonic) : opcodeByte m ∈ nonAluOps ↔ (fieldsOf m).isAlu = false := by
  cases m <;> decide

/-- A byte outside a list that holds every defined opcode byte of its ALU flag is undefined (30_encoding.md R67). -/
theorem mnemonicOf_eq_none_of_not_mem {op : Byte} {ops : List Byte}
    (hops : ∀ m, (fieldsOf m).isAlu = (decodeFields op).isAlu → opcodeByte m ∈ ops) (hop : op ∉ ops) :
    mnemonicOf op = none := by
  cases hm : mnemonicOf op with
  | none => rfl
  | some m =>
    obtain rfl := opcodeByte_of_mnemonicOf hm
    exact absurd (hops m rfl) hop

/-- An undefined opcode byte ends the step before any operand is fetched, by the condition of its ALU flag
(40_execution_cycle.md R83, R84). -/
theorem step_of_undefined_opcode {s : State} (hs : s.status = .running) (hpc : s.pc < 256)
    (hnone : mnemonicOf (readCell s.mem s.pc) = none) :
    step s = .next (raise (if (decodeFields (readCell s.mem s.pc)).isAlu
      then .unsupportedOperation (readCell s.mem s.pc) s.pc else .invalidOpcode (readCell s.mem s.pc) s.pc) s) := by
  have hread : memRead s.pc s = .ok (readCell s.mem s.pc) := memRead_eq_ok.mpr ⟨hpc, rfl⟩
  have hclass := (classifyAt_eq_error (s := s)).mpr ⟨hnone, rfl⟩
  exact step_of_fetch_error hs (bind_eq_error.mpr (.inr ⟨_, hread, bind_eq_error.mpr (.inl hclass)⟩))

/-- Settles O9: outside the ALU bytes a byte with the ALU flag is undefined. -/
theorem undefinedAluByteRaises : Obligations.UndefinedAluByteRaises := by
  intro s hs hpc hbit hop
  have halu : (decodeFields (readCell s.mem s.pc)).isAlu = true := hbit
  have hnone := mnemonicOf_eq_none_of_not_mem (fun m hm => (opcodeByte_mem_aluOps m).mpr (hm.trans halu)) hop
  rw [step_of_undefined_opcode hs (Nat.lt_succ_of_le hpc) hnone, if_pos halu]
  rfl

/-- Settles O10: outside the non-ALU bytes a byte without the ALU flag is undefined. -/
theorem undefinedOtherByteRaises : Obligations.UndefinedOtherByteRaises := by
  intro s hs hpc hbit hop
  have halu : (decodeFields (readCell s.mem s.pc)).isAlu = false := hbit
  have hnone := mnemonicOf_eq_none_of_not_mem (fun m hm => (opcodeByte_mem_nonAluOps m).mpr (hm.trans halu)) hop
  rw [step_of_undefined_opcode hs (Nat.lt_succ_of_le hpc) hnone, if_neg (by simp [halu])]
  rfl

end Sys2Proof.Machine
end

section
/-! SUPPORT AND PROOFS for the statements about the ALU (41_alu.md): the bytes of an instruction, the operand checks in
their order, and the end of a cycle after an ALU handler that completes; from these the result of each instruction. -/

namespace Sys2Proof.Machine

open Sys2Proof.Claims

/-! ### The bytes of an instruction -/

/-- An instruction is encoded in the bytes `encode` gives it (30_encoding.md R60, R63). -/
theorem encodes_encode (i : Instr) : Encodes i (encode i) := ⟨rfl, decodeEncodeRoundTrip i⟩

/-! ### Operand checks -/

theorem raises_of_handlerOf_error {i : Instr} {s : State} {c : Condition} (h : handlerOf i s = .error c) :
    Raises i s c := by
  rw [Raises, exec_eq_endCycle, h]
  rfl

/-- A handler that first checks an operand above 7 raises for it (10_state.md R21). -/
theorem raises_of_checkReg_bind {i : Instr} {s : State} {a : Byte} {k : Fin 8 → Except Condition State}
    (h : handlerOf i s = checkReg a >>= k) (ha : 8 ≤ a.toNat) : Raises i s (.outOfBounds .reg a.toNat) :=
  raises_of_handlerOf_error (by rw [h, checkReg_of_ge ha, error_bind])

/-- A handler that checks one operand before all else makes the one-operand check (41_alu.md R100). -/
theorem checksOneRegister_of_handlerOf {mk : Byte → Instr} {k : State → Fin 8 → Except Condition State}
    (h : ∀ s a, handlerOf (mk a) s = checkReg a >>= k s) : ChecksOneRegister mk :=
  fun s a ha => raises_of_checkReg_bind (h s a) ha

/-- A handler that checks a and then b before all else makes the two-operand check (41_alu.md R100). -/
theorem checksTwoRegisters_of_handlerOf {mk : Byte → Byte → Instr}
    {k : State → Fin 8 → Fin 8 → Except Condition State}
    (h : ∀ s a b, handlerOf (mk a b) s = checkReg a >>= fun ra => checkReg b >>= k s ra) : ChecksTwoRegisters mk := by
  refine ⟨fun s a b ha => raises_of_checkReg_bind (h s a b) ha, fun s a b ha hb => raises_of_handlerOf_error ?_⟩
  have hcheck : checkReg a = .ok ⟨a.toNat, ha⟩ := checkReg_of_eq rfl
  rw [h, hcheck, ok_bind, checkReg_of_ge hb, error_bind]

/-! ### The end of a cycle after an ALU handler -/

/-- A handler that completes in Running under a sets-PC flag of 0 is followed by the auto-advance
(40_execution_cycle.md R87). -/
theorem endCycle_of_eq_ok {m : Mnemonic} {s u : State} {handler : Except Condition State} (h : handler = .ok u)
    (hm : (fieldsOf m).setsPc = false) (hu : u.status = .running) :
    endCycle m s handler = .next (setPc (u.pc + (fieldsOf m).operandCount + 1) u) := by
  rw [h, endCycle, autoAdvance_of_running hm hu]

section EndOfCycle

variable {m : Mnemonic} {a b : Byte} {s : State} {ra rb : Fin 8}

/-- A two-operand ALU instruction stores its result in x[a] and moves pc on by 3 (41_alu.md R100). -/
theorem endCycle_aluBinary {f : Byte → Byte → Int} (hm : fieldsOf m = ⟨2, true, false⟩)
    (hs : s.status = .running) (ha : a.toNat = ra) (hb : b.toNat = rb) :
    endCycle m s (aluBinary f a b s) =
      .next { s with regs := s.regs.set ra (truncate (f s.regs[ra] s.regs[rb])), pc := s.pc + 3 } := by
  rw [endCycle_of_eq_ok (aluBinary_eq_ok.mpr ⟨ra, rb, ha, hb, rfl⟩) (by rw [hm]) hs, hm]
  rfl

/-- A one-operand ALU instruction stores its result in x[a] and moves pc on by 2 (41_alu.md R100). -/
theorem endCycle_aluUnary {f : Byte → Int} (hm : fieldsOf m = ⟨1, true, false⟩) (hs : s.status = .running)
    (ha : a.toNat = ra) :
    endCycle m s (aluUnary f a s) =
      .next { s with regs := s.regs.set ra (truncate (f s.regs[ra])), pc := s.pc + 2 } := by
  rw [endCycle_of_eq_ok (aluUnary_eq_ok.mpr ⟨ra, ha, rfl⟩) (by rw [hm]) hs, hm]
  rfl

/-- CMP stores the outcome of the comparison in FL and moves pc on by 3 (41_alu.md R108). -/
theorem endCycle_aluCompare (hm : fieldsOf m = ⟨2, true, false⟩) (hs : s.status = .running) (ha : a.toNat = ra)
    (hb : b.toNat = rb) :
    endCycle m s (aluCompare a b s) =
      .next { s with fl := compareFlags s.regs[ra] s.regs[rb], pc := s.pc + 3 } := by
  rw [endCycle_of_eq_ok (aluCompare_eq_ok.mpr ⟨ra, rb, ha, hb, rfl⟩) (by rw [hm]) hs, hm]
  rfl

end EndOfCycle

/-! ### The values written -/

/-- A register write of an integer stores any natural number of the same residue modulo 256 (10_state.md R22). -/
theorem truncate_eq_ofNat {v : Int} {n : Nat} (h : v % 256 = n % 256) : truncate v = BitVec.ofNat 8 n := by
  apply BitVec.eq_of_toNat_eq
  have hv := truncate_toNat_eq_emod v
  rw [BitVec.toNat_ofNat]
  omega

theorem truncate_add (x y : Byte) :
    truncate ((x.toNat : Int) + y.toNat) = BitVec.ofNat 8 ((x.toNat + y.toNat) % 256) :=
  truncate_natCast (x.toNat + y.toNat)

theorem truncate_mul (x y : Byte) :
    truncate ((x.toNat : Int) * y.toNat) = BitVec.ofNat 8 ((x.toNat * y.toNat) % 256) :=
  truncate_natCast (x.toNat * y.toNat)

/-- NOT's value lies in 0..255, so that nothing wraps (41_alu.md R105). -/
theorem truncate_complement (x : Byte) : truncate (255 - (x.toNat : Int)) = BitVec.ofNat 8 (255 - x.toNat) :=
  truncate_eq_ofNat (by omega)

/-- The unbounded complement wraps to NOT's value (41_alu.md R105). -/
theorem truncate_unbounded_complement (x : Byte) : truncate (-(x.toNat : Int) - 1) = BitVec.ofNat 8 (255 - x.toNat) :=
  truncate_eq_ofNat (by omega)

theorem truncate_inc (x : Byte) : truncate ((x.toNat : Int) + 1) = BitVec.ofNat 8 ((x.toNat + 1) % 256) :=
  truncate_natCast (x.toNat + 1)

theorem truncate_dec (x : Byte) : truncate ((x.toNat : Int) - 1) = BitVec.ofNat 8 ((x.toNat + 255) % 256) :=
  truncate_eq_ofNat (by omega)

/-- The comparison of two bytes as values is the comparison of the bytes (41_alu.md R108). -/
theorem compareFlags_eq_ite (x y : Byte) :
    compareFlags x y = if x = y then 0x01#8 else if x.toNat < y.toNat then 0x04#8 else 0x02#8 := by
  simp only [compareFlags, BitVec.toNat_inj]

theorem compareFlags_cases (x y : Byte) :
    compareFlags x y = 0x01#8 ∨ compareFlags x y = 0x02#8 ∨ compareFlags x y = 0x04#8 := by
  unfold compareFlags
  split
  · exact .inl rfl
  · split
    · exact .inr (.inr rfl)
    · exact .inr (.inl rfl)

/-! ### Who writes FL -/

/-- Settles O19: a completed handler other than CMP's leaves FL, CMP's writes the outcome of a comparison, and a raise
leaves FL and ends Running. -/
theorem onlyCmpWritesFlags : Obligations.OnlyCmpWritesFlags := by
  refine ⟨fun s t i hi h => ?_, fun s t a b _ h ht => ?_⟩
  · obtain ⟨u, hu, rfl⟩ | ⟨c, -, rfl⟩ := exec_completes_or_raises h
    · rw [autoAdvance_fl]
      obtain hfl | ⟨a, b, x, y, rfl, -⟩ := hu.fl
      · exact hfl
      · exact absurd rfl hi
    · rfl
  · obtain ⟨u, hu, rfl⟩ | ⟨c, -, rfl⟩ := exec_cases h
    · obtain ⟨ra, rb, -, -, rfl⟩ := aluCompare_eq_ok.mp hu
      rw [autoAdvance_fl]
      exact compareFlags_cases _ _
    · cases ht

/-! ### The result of each instruction -/

/-- Settles O35: the sum is stored modulo 256. -/
theorem addResult : Obligations.AddResult := by
  refine ⟨fun a b => encodes_encode (.add a b), fun s a b ra rb hs ha hb => ?_,
    checksTwoRegisters_of_handlerOf fun _ _ _ => rfl⟩
  rw [exec, execAdd, endCycle_aluBinary fieldsOf_add hs ha hb, truncate_add]

/-- Settles O36: the product is stored modulo 256. -/
theorem mulResult : Obligations.MulResult := by
  refine ⟨fun a b => encodes_encode (.mul a b), fun s a b ra rb hs ha hb => ?_,
    checksTwoRegisters_of_handlerOf fun _ _ _ => rfl⟩
  rw [exec, execMul, endCycle_aluBinary fieldsOf_mul hs ha hb, truncate_mul]

/-- Settles O37: the bitwise and is a byte, stored as it is. -/
theorem andResult : Obligations.AndResult := by
  refine ⟨fun a b => encodes_encode (.and a b), fun s a b ra rb hs ha hb => ?_,
    checksTwoRegisters_of_handlerOf fun _ _ _ => rfl⟩
  rw [exec, execAnd, endCycle_aluBinary fieldsOf_and hs ha hb, truncate_toNat]

/-- Settles O38: the bitwise exclusive or is a byte, stored as it is. -/
theorem xorResult : Obligations.XorResult := by
  refine ⟨fun a b => encodes_encode (.xor a b), fun s a b ra rb hs ha hb => ?_,
    checksTwoRegisters_of_handlerOf fun _ _ _ => rfl⟩
  rw [exec, execXor, endCycle_aluBinary fieldsOf_xor hs ha hb, truncate_toNat]

/-- Settles O39: 255 - x needs no wrap, and the unbounded complement has its residue modulo 256. -/
theorem notResult : Obligations.NotResult := by
  refine ⟨fun a => encodes_encode (.not a), fun s a ra hs ha => ?_,
    fun x => (truncate_unbounded_complement x).symm, checksOneRegister_of_handlerOf fun _ _ => rfl⟩
  rw [exec, execNot, endCycle_aluUnary fieldsOf_not hs ha, truncate_complement]

/-- Settles O40: the successor is stored modulo 256. -/
theorem incResult : Obligations.IncResult := by
  refine ⟨fun a => encodes_encode (.inc a), fun s a ra hs ha => ?_,
    checksOneRegister_of_handlerOf fun _ _ => rfl⟩
  rw [exec, execInc, endCycle_aluUnary fieldsOf_inc hs ha, truncate_inc]

/-- Settles O41: minus one and plus 255 have the same residue modulo 256. -/
theorem decResult : Obligations.DecResult := by
  refine ⟨fun a => encodes_encode (.dec a), fun s a ra hs ha => ?_,
    checksOneRegister_of_handlerOf fun _ _ => rfl⟩
  rw [exec, execDec, endCycle_aluUnary fieldsOf_dec hs ha, truncate_dec]

/-- Settles O42: FL is the outcome of the comparison, and no register is written. -/
theorem cmpResult : Obligations.CmpResult := by
  refine ⟨fun a b => encodes_encode (.cmp a b), fun s a b ra rb hs ha hb => ?_,
    checksTwoRegisters_of_handlerOf fun _ _ _ => rfl⟩
  rw [exec, execCmp, endCycle_aluCompare fieldsOf_cmp hs ha hb, compareFlags_eq_ite]

/-! ### The hand-off by identifier -/

/-- An identifier with a byte is dispatched to the instruction its byte names (40_execution_cycle.md R86;
41_alu.md R117). -/
theorem aluDispatch_of_aluByte {id : AluIdent} {op : Byte} (h : aluByte id = some op) :
    ∃ m, mnemonicOf op = some m ∧ ∀ (s : State) (a b : Byte), aluDispatch id op a b s = exec (build m a b) s := by
  cases id with
  | sub | div => cases h
  | add | mul | and | xor | not | inc | dec | cmp =>
    obtain rfl := Option.some.inj h
    exact ⟨_, mnemonicOf_opcodeByte _, fun _ _ _ => rfl⟩

/-- Settles O43: SUB and DIV have no byte and their arms raise, and the bytes 0xA1 and 0xA3 name no mnemonic and have
the ALU flag. -/
theorem subAndDivAreReserved : Obligations.SubAndDivAreReserved :=
  ⟨rfl, rfl, fun _ _ _ _ => ⟨rfl, rfl⟩, fun _ _ => aluDispatch_of_aluByte,
    classify_eq_error.mpr ⟨by decide, rfl⟩, classify_eq_error.mpr ⟨by decide, rfl⟩⟩

end Sys2Proof.Machine
end

section
/-! SUPPORT AND PROOFS for the statements about loads and outputs (42_load_and_output.md): what each of the four
instructions does from Running with its operands in 0..7, and the result of each. -/

namespace Sys2Proof.Machine

open Sys2Proof.Claims

/-- An instruction whose handler completes in Running under a sets-PC flag of 0 moves pc past itself
(40_execution_cycle.md R87). -/
theorem exec_of_handlerOf_ok_running {i : Instr} {s u : State} {n : Nat} {alu : Bool} (h : handlerOf i s = .ok u)
    (hi : fieldsOf i.mnemonic = ⟨n, alu, false⟩) (hu : u.status = .running) :
    exec i s = .next (setPc (u.pc + n + 1) u) := by
  rw [exec_of_handlerOf_ok h, autoAdvance_of_running (by rw [hi]) hu, hi]

/-- A write of a register with a byte stores that byte (10_state.md R22). -/
theorem writeReg_toNat (r : Fin 8) (v : Byte) (s : State) :
    writeReg r v.toNat s = { s with regs := s.regs.set r v } := by
  rw [writeReg, truncate_toNat]

/-- Every byte is the code point of a character (42_load_and_output.md R133). -/
theorem toNat_codePoint (v : Byte) : (codePoint v).toNat = v.toNat := by
  have hvalid : v.toNat.isValidChar := .inl (by omega)
  rw [codePoint, Char.toNat_ofNat, if_pos hvalid]

/-- Settles O44: the immediate is a byte, stored as it is. -/
theorem ldiResult : Obligations.LdiResult := by
  refine ⟨fun a imm => encodes_encode (.ldi a imm), fun s a imm ra hs ha => ?_,
    fun s a imm ha => raises_of_checkReg_bind (s := s) rfl ha⟩
  have hok : handlerOf (.ldi a imm) s = .ok (writeReg ra imm.toNat s) := loadImmediate_eq_ok.mpr ⟨ra, ha, rfl⟩
  rw [exec_of_handlerOf_ok_running hok fieldsOf_ldi hs, writeReg_toNat]
  rfl

/-- Settles O45: a register's value is an address in range, and the byte there is stored as it is. -/
theorem ldResult : Obligations.LdResult := by
  refine ⟨fun a b => encodes_encode (.ld a b), fun s a b ra rb hs ha hb => ?_,
    checksTwoRegisters_of_handlerOf fun _ _ _ => rfl⟩
  have hok : handlerOf (.ld a b) s = .ok (writeReg ra (readCell s.mem (readReg rb s).toNat).toNat s) :=
    loadIndirect_eq_ok.mpr ⟨ra, rb, ha, hb, rfl⟩
  rw [exec_of_handlerOf_ok_running hok fieldsOf_ld hs, writeReg_toNat]
  rfl

/-- Settles O46: the handler appends to the diagnostic channel alone. -/
theorem prnResult : Obligations.PrnResult := by
  refine ⟨fun a => encodes_encode (.prn a), fun s a ra hs ha => ?_, checksOneRegister_of_handlerOf fun _ _ => rfl⟩
  have hok : handlerOf (.prn a) s = .ok (appendDiag (readReg ra s) s) := printNumber_eq_ok.mpr ⟨ra, ha, rfl⟩
  rw [exec_of_handlerOf_ok_running hok fieldsOf_prn hs]
  rfl

/-- Settles O47: the handler appends to the output buffer alone, and every byte is a code point. -/
theorem praResult : Obligations.PraResult := by
  refine ⟨fun a => encodes_encode (.pra a), fun s a ra hs ha => ?_, checksOneRegister_of_handlerOf fun _ _ => rfl,
    toNat_codePoint⟩
  have hok : handlerOf (.pra a) s = .ok (appendOut (readReg ra s) s) := printChar_eq_ok.mpr ⟨ra, ha, rfl⟩
  rw [exec_of_handlerOf_ok_running hok fieldsOf_pra hs]
  rfl

end Sys2Proof.Machine
end

section
/-! SUPPORT AND PROOFS for the statements about the stack (43_stack.md): the moves of SP as register writes, when the
underflow check stops a pop, and what a push followed by a pop leaves in the registers. -/

namespace Sys2Proof.Machine

open Sys2Proof.Claims

/-! ### The moves of SP -/

/-- A push's move of SP writes SP minus one modulo 256 (43_stack.md R150). -/
theorem decSp_eq_set (s : State) : decSp s = { s with regs := s.regs.set 7 (s.regs[7] - 1#8) } := by
  rw [decSp, setSp, writeReg, truncate_pred]
  rfl

/-- A pop's move of SP writes SP plus one modulo 256 (43_stack.md R150). -/
theorem incSp_eq_set (s : State) : incSp s = { s with regs := s.regs.set 7 (s.regs[7] + 1#8) } := by
  rw [incSp, setSp, writeReg, truncate_succ]
  rfl

/-! ### The underflow check -/

/-- A pop is allowed exactly where the underflow check passes (43_stack.md R153). -/
theorem popAllowed_iff {s : State} : PopAllowed s ↔ (s.config.underflowCheck = true → (sp s).toNat < 0xF4) := by
  rw [PopAllowed, ← Bool.not_eq_true, ← imp_iff_not_or]
  rfl

/-- The check on and SP at 0xF4 or above raise the condition with SP's value (43_stack.md R153). -/
theorem checkUnderflow_of_ge {s : State} (hc : s.config.underflowCheck = true) (hge : 0xF4 ≤ (s.regs[7]).toNat) :
    checkUnderflow s = .error (.outOfBounds .stack (s.regs[7]).toNat) :=
  checkUnderflow_eq_error.mpr ⟨hc, hge, rfl⟩

/-- A register operand in 0..7 passes POP's first check, so that the underflow check decides (43_stack.md R152). -/
theorem popReg_of_checkUnderflow_error {s : State} {a : Byte} {c : Condition} (ha : a.toNat < 8)
    (h : checkUnderflow s = .error c) : popReg a s = .error c := by
  have hcheck : checkReg a = .ok ⟨a.toNat, ha⟩ := checkReg_of_eq rfl
  rw [popReg, hcheck, ok_bind, h, error_bind]

theorem returnToTop_of_checkUnderflow_error {s : State} {c : Condition} (h : checkUnderflow s = .error c) :
    returnToTop s = .error c := by
  rw [returnToTop, h, error_bind]

/-- An execution that turns Running into Faulted has raised that condition (60_exceptions.md R203). -/
theorem handlerOf_eq_error_of_faulted {i : Instr} {s t : State} {c : Condition} (hs : s.status = .running)
    (h : exec i s = .next t) (ht : t.status = .faulted c) : handlerOf i s = .error c := by
  obtain ⟨u, hu, rfl⟩ | ⟨c', hc', rfl⟩ := exec_completes_or_raises h
  · rw [autoAdvance_status] at ht
    obtain ⟨-, hst⟩ | ⟨-, hst⟩ := hu.status
    · simp [hst, hs] at ht
    · simp [hst] at ht
  · cases ht
    exact hc'

/-! ### What PUSH and POP do from Running -/

section Running

variable {s : State} {a : Byte} {ra : Fin 8}

/-- PUSH stores x[a], as the decrement of SP leaves it, in the cell SP then points at (43_stack.md R151). -/
theorem exec_push_of_running (hs : s.status = .running) (ha : a.toNat = ra) :
    exec (.push a) s = .next (setPc (s.pc + 2)
      { decSp s with mem := writeCell s.mem (sp (decSp s)).toNat (readReg ra (decSp s)) }) :=
  exec_of_handlerOf_ok_running (i := .push a) (pushReg_eq_ok.mpr ⟨ra, ha, rfl⟩) fieldsOf_push hs

/-- POP writes x[a] with the byte SP points at and then moves SP up from what it holds (43_stack.md R152). -/
theorem exec_pop_of_running (hs : s.status = .running) (ha : a.toNat = ra) (hpop : PopAllowed s) :
    exec (.pop a) s = .next (setPc (s.pc + 2) (incSp (writeReg ra (readCell s.mem (sp s).toNat).toNat s))) :=
  exec_of_handlerOf_ok_running (i := .pop a) (popReg_eq_ok.mpr ⟨popAllowed_iff.mp hpop, ra, ha, rfl⟩)
    fieldsOf_pop hs

end Running

/-- Settles O48: the store is made at the decremented SP, with x[a] read after the decrement. -/
theorem pushResult : Obligations.PushResult := by
  refine ⟨fun a => encodes_encode (.push a), fun s a ra hs ha => ?_, checksOneRegister_of_handlerOf fun _ _ => rfl⟩
  rw [exec_push_of_running hs ha, sp_decSp, truncate_pred, decSp_eq_set]
  rfl

/-- Settles O49: the byte is read at SP, and SP moves up from what it holds after the write of x[a]. -/
theorem popResult : Obligations.PopResult := by
  refine ⟨fun a => encodes_encode (.pop a), fun s a ra hs ha hpop => ?_,
    checksOneRegister_of_handlerOf fun _ _ => rfl⟩
  rw [exec_pop_of_running hs ha hpop, writeReg_toNat, incSp_eq_set]
  rfl

/-! ### The conditions POP and RET raise -/

/-- Settles O50: the check precedes every write of POP and RET, and no other check raises the stack condition. -/
theorem underflowCheckRaises : Obligations.UnderflowCheckRaises := by
  refine ⟨fun s a ha hc hge => ?_, fun s hc hge => ?_, fun s t i v hs h ht => ?_⟩
  · exact raises_of_handlerOf_error (popReg_of_checkUnderflow_error ha (checkUnderflow_of_ge hc hge))
  · exact raises_of_handlerOf_error (returnToTop_of_checkUnderflow_error (checkUnderflow_of_ge hc hge))
  · cases raisable_of_handlerOf (handlerOf_eq_error_of_faulted hs h ht) with
    | underflow hi hc hge =>
      refine ⟨?_, hc, rfl, hge⟩
      obtain rfl | ⟨a, rfl⟩ := hi
      · simp [Instr.mnemonic]
      · simp [Instr.mnemonic]

/-! ### PUSH, then POP -/

/-- A move of SP leaves the other registers (10_state.md R23). -/
theorem readReg_decSp_of_ne (s : State) {r : Fin 8} (hr : r ≠ spIndex) : readReg r (decSp s) = readReg r s :=
  getElem_set_spIndex s.regs _ (Fin.val_ne_of_ne hr)

/-- SP moved down and, after a write of another register, up again is back where it was: the two moves cancel. -/
theorem incSp_writeReg_decSp (s : State) (v : Int) {r : Fin 8} (hr : r ≠ spIndex) :
    incSp (writeReg r v (decSp s)) = writeReg r v s := by
  have hsp : sp (writeReg r v (decSp s)) = s.regs[7] - 1#8 := by
    rw [sp, readReg_writeReg, if_neg hr.symm, decSp_eq_set]
    exact Vector.getElem_set_self _
  have hregs : (incSp (writeReg r v (decSp s))).regs = (writeReg r v s).regs := calc
    _ = ((s.regs.set 7 (s.regs[7] - 1#8)).set r (truncate v)).set 7 s.regs[7] := by
      rw [incSp_regs, hsp, truncate_succ, BitVec.sub_add_cancel, decSp_eq_set]
      rfl
    _ = ((s.regs.set 7 (s.regs[7] - 1#8)).set 7 s.regs[7]).set r (truncate v) :=
      Vector.set_comm _ _ (Fin.val_ne_of_ne hr)
    _ = s.regs.set r (truncate v) := by rw [Vector.set_set, Vector.set_getElem_self]
  exact congrArg (fun regs => { s with regs }) hregs

/-- Settles O51: the pop reads the cell the push wrote, which holds the old x[a], and the two moves of SP cancel. -/
theorem pushThenPopCopies : Obligations.PushThenPopCopies := by
  intro s a b ra rb hs ha hb hra hrb hpop
  have hallowed : PopAllowed (decSp s) := by rwa [decSp_eq_set, PopAllowed, Vector.getElem_set_self]
  refine ⟨_, _, exec_push_of_running hs ha, exec_pop_of_running hs hb hallowed, hs, rfl, fun r => ?_⟩
  have htop : readCell (writeCell s.mem (sp (decSp s)).toNat (readReg ra (decSp s))) (sp (decSp s)).toNat =
      readReg ra s := by
    rw [readCell_writeCell_same, readReg_decSp_of_ne s hra]
  calc
    _ = readReg r (incSp (writeReg rb (readReg ra s).toNat (decSp s))) := by rw [← htop]; rfl
    _ = readReg r (writeReg rb (readReg ra s).toNat s) := by rw [incSp_writeReg_decSp s _ hrb]
    _ = if r = rb then readReg ra s else readReg r s := by rw [readReg_writeReg, truncate_toNat]

end Sys2Proof.Machine
end

section
/-! SUPPORT AND PROOFS for the statements about control transfer (44_control_transfer.md): the end of a cycle whose
handler sets pc, a taken jump as one lemma for JMP, JEQ and JNE, and what CALL leaves on the stack for RET. -/

namespace Sys2Proof.Machine

open Sys2Proof.Claims

/-- No auto-advance follows a completed handler that sets pc itself (40_execution_cycle.md R87). -/
theorem exec_of_handlerOf_ok_setsPc {i : Instr} {s u : State} (h : handlerOf i s = .ok u)
    (hi : (fieldsOf i.mnemonic).setsPc = true) : exec i s = .next u := by
  rw [exec_of_handlerOf_ok h, autoAdvance_of_setsPc_true u hi]

/-! ### CALL and RET -/

section CallRet

variable {s t : State} {a : Byte} {ra : Fin 8}

/-- CALL stores the return address in the cell the decremented SP points at, and jumps to x[a] as the decrement leaves
it (44_control_transfer.md R171). -/
theorem exec_call (ha : a.toNat = ra) (hpc : s.pc + 2 ≤ 255) :
    exec (.call a) s = .next { decSp s with
      mem := writeCell s.mem (sp (decSp s)).toNat (BitVec.ofNat 8 (s.pc + 2))
      pc := (readReg ra (decSp s)).toNat } :=
  exec_of_handlerOf_ok_setsPc (i := .call a) (callReg_eq_ok.mpr ⟨Nat.lt_succ_of_le hpc, ra, ha, rfl⟩)
    (congrArg Fields.setsPc fieldsOf_call)

/-- A register operand in 0..7 passes CALL's first check, so that the range of the return address decides
(44_control_transfer.md R171, D8). -/
theorem callReg_of_returnAddress_error {c : Condition} (ha : a.toNat < 8) (h : returnAddress s = .error c) :
    callReg a s = .error c := by
  have hcheck : checkReg a = .ok ⟨a.toNat, ha⟩ := checkReg_of_eq rfl
  rw [callReg, hcheck, ok_bind, h, error_bind]

/-- A completed CALL leaves SP one down, pointing at the return address (44_control_transfer.md R171). -/
theorem stack_of_exec_call (ha : a.toNat < 8) (hpc : s.pc + 2 ≤ 255) (h : exec (.call a) s = .next t) :
    t.regs[7] = s.regs[7] - 1#8 ∧ readCell t.mem (t.regs[7]).toNat = BitVec.ofNat 8 (s.pc + 2) := by
  cases (exec_call (ra := ⟨a.toNat, ha⟩) rfl hpc).symm.trans h
  refine ⟨?_, readCell_writeCell_same ..⟩
  rw [decSp_eq_set]
  exact Vector.getElem_set_self _

/-- RET takes pc from the stack and moves SP up (44_control_transfer.md R172). -/
theorem exec_ret (hpop : PopAllowed s) :
    exec .ret s = .next { s with
      regs := s.regs.set 7 (s.regs[7] + 1#8), pc := (readCell s.mem (s.regs[7]).toNat).toNat } := by
  have hok : handlerOf .ret s = .ok (incSp (setPc (readCell s.mem (sp s).toNat).toNat s)) :=
    returnToTop_eq_ok.mpr ⟨popAllowed_iff.mp hpop, rfl⟩
  rw [exec_of_handlerOf_ok_setsPc hok (congrArg Fields.setsPc fieldsOf_ret), incSp_eq_set]
  rfl

end CallRet

/-- Settles O54: RET reads the return address CALL stored, and the two moves of SP cancel. -/
theorem retResumesAfterCall : Obligations.RetResumesAfterCall := by
  intro s t v a ha hpc hcall hsp htop hpop
  obtain ⟨hdown, hret⟩ := stack_of_exec_call ha hpc hcall
  refine ⟨_, exec_ret hpop, ?_, ?_⟩
  · calc (readCell v.mem (v.regs[7]).toNat).toNat
      _ = (BitVec.ofNat 8 (s.pc + 2)).toNat := by rw [htop, hret]
      _ = s.pc + 2 := by rw [BitVec.toNat_ofNat, Nat.mod_eq_of_lt (by omega)]
  · calc (v.regs.set 7 (v.regs[7] + 1#8))[7]
      _ = v.regs[7] + 1#8 := Vector.getElem_set_self _
      _ = s.regs[7] := by rw [hsp, hdown, BitVec.sub_add_cancel]

/-- Settles O52: the store is made at the decremented SP, and the target is read after the decrement. -/
theorem callResult : Obligations.CallResult := by
  refine ⟨fun a => encodes_encode (.call a), fun s a ra ha hpc => ?_, fun s a ha hpc => ?_,
    checksOneRegister_of_handlerOf fun _ _ => rfl⟩
  · rw [exec_call ha hpc, sp_decSp, truncate_pred, decSp_eq_set]
    rfl
  · exact raises_of_handlerOf_error (callReg_of_returnAddress_error ha (returnAddress_eq_error.mpr ⟨hpc, rfl⟩))

/-- Settles O53: pc takes the byte at SP before SP moves up. -/
theorem retResult : Obligations.RetResult := ⟨encodes_encode .ret, fun _ => exec_ret⟩

/-! ### Jumps -/

section Jumps

variable {i : Instr} {s : State} {a : Byte} {ra : Fin 8}

/-- A taken jump sets pc to x[a] and changes nothing else (44_control_transfer.md R170). -/
theorem exec_of_jumpReg (h : handlerOf i s = jumpReg a s) (hi : (fieldsOf i.mnemonic).setsPc = true)
    (ha : a.toNat = ra) : exec i s = .next { s with pc := (s.regs[ra]).toNat } :=
  exec_of_handlerOf_ok_setsPc (h.trans (jumpReg_eq_ok.mpr ⟨ra, ha, rfl⟩)) hi

theorem exec_jmp (ha : a.toNat = ra) : exec (.jmp a) s = .next { s with pc := (s.regs[ra]).toNat } :=
  exec_of_jumpReg (i := .jmp a) rfl (congrArg Fields.setsPc fieldsOf_jmp) ha

theorem handlerOf_jeq_of_flagE (hE : flagE s.fl = true) : handlerOf (.jeq a) s = jumpReg a s := by
  rw [handlerOf, hE, jumpIf, if_pos rfl]

theorem handlerOf_jne_of_not_flagE (hE : flagE s.fl = false) : handlerOf (.jne a) s = jumpReg a s := by
  rw [handlerOf, hE, jumpIf, Bool.not_false, if_pos rfl]

/-- A conditional jump not taken passes its two bytes (40_execution_cycle.md R88). -/
theorem fallThrough_eq_setPc {m : Mnemonic} (hm : fieldsOf m = ⟨1, false, true⟩) :
    fallThrough m s = { s with pc := s.pc + 2 } := by
  rw [fallThrough, hm]
  rfl

end Jumps

/-- Settles O55: the handler sets pc alone, so that a jump to its own address changes nothing. -/
theorem jmpResult : Obligations.JmpResult := by
  refine ⟨fun a => encodes_encode (.jmp a), fun s a ra ha => exec_jmp ha, fun s a ra ha hself => ?_,
    checksOneRegister_of_handlerOf fun _ _ => rfl⟩
  rw [exec_jmp ha, hself]

/-- Settles O56: with FL.E set the handler is JMP's, with FL.E clear it is its own advance. -/
theorem jeqResult : Obligations.JeqResult := by
  refine ⟨fun a => encodes_encode (.jeq a), fun s a ra hE ha => ?_, fun s a hE => ?_, fun s a hE ha => ?_⟩
  · exact exec_of_jumpReg (handlerOf_jeq_of_flagE hE) (congrArg Fields.setsPc fieldsOf_jeq) ha
  · rw [exec_jeq_of_not_flagE a hE, fallThrough_eq_setPc fieldsOf_jeq]
  · exact raises_of_checkReg_bind (handlerOf_jeq_of_flagE hE) ha

/-- Settles O57: with FL.E clear the handler is JMP's, with FL.E set it is its own advance. -/
theorem jneResult : Obligations.JneResult := by
  refine ⟨fun a => encodes_encode (.jne a), fun s a ra hE ha => ?_, fun s a hE => ?_, fun s a hE ha => ?_⟩
  · exact exec_of_jumpReg (handlerOf_jne_of_not_flagE hE) (congrArg Fields.setsPc fieldsOf_jne) ha
  · rw [exec_jne_of_flagE a hE, fallThrough_eq_setPc fieldsOf_jne]
  · exact raises_of_checkReg_bind (handlerOf_jne_of_not_flagE hE) ha

end Sys2Proof.Machine
end

section
/-! SUPPORT AND PROOFS for the statements about the system instructions (45_system.md): the end of HLT's cycle, which
makes no advance, and the terminal status it leaves. -/

namespace Sys2Proof.Machine

open Sys2Proof.Claims

/-- A machine whose run is over makes no advance (40_execution_cycle.md R87). -/
theorem autoAdvance_of_not_running (m : Mnemonic) {s : State} (hs : s.status ≠ .running) : autoAdvance m s = s := by
  simp [autoAdvance, hs]

/-- HLT ends the run and leaves pc at its own address (45_system.md R191, D16). -/
theorem exec_hlt (s : State) : exec .hlt s = .next (halt s) := by
  have hhalt : handlerOf .hlt s = .ok (halt s) := rfl
  rw [exec_of_handlerOf_ok hhalt, autoAdvance_of_not_running _ (by simp)]

/-- From Halted no step is defined (40_execution_cycle.md R80). -/
theorem step_of_halted {s : State} (hs : s.status = .halted) : step s = .fault .halted := by
  rw [step, hs]

/-- A halted machine shows its output buffer whole, under any bound (70_reset_and_hazards.md R238). -/
theorem runFor_of_halted (k : Nat) {s : State} (hs : s.status = .halted) : runFor k s = .halted (outputText s.out) := by
  rw [runFor_of_not_running k (by simp [hs]), verdictOf, hs]

/-- Settles O59: NOP's handler changes nothing, and the auto-advance passes its one byte. -/
theorem nopResult : Obligations.NopResult := ⟨encodes_encode .nop, fun _ => exec_nop_of_running⟩

/-- Settles O60: HLT's handler sets the terminal status, which stops the auto-advance, every later step and the run. -/
theorem hltResult : Obligations.HltResult :=
  ⟨encodes_encode .hlt, fun s => ⟨exec_hlt s, step_of_halted rfl, fun k => runFor_of_halted k rfl⟩⟩

end Sys2Proof.Machine
end

section
/-! SUPPORT AND PROOFS for the statements about the conditions (60_exceptions.md): the step that raises a condition, the
conditions a step can raise, and the end of the run in a faulted machine, be it by a step or by a failed load. -/

namespace Sys2Proof.Machine

open Sys2Proof.Claims

/-! ### The step that raises a condition -/

/-- A step that turns Running into Faulted is the raise of a condition of the handler or of the fetch
(60_exceptions.md R203; 40_execution_cycle.md R90). -/
theorem step_faulted_cases {s t : State} {c : Condition} (h : step s = .next t) (ht : t.status = .faulted c) :
    t = raise c s ∧ ((∃ i, Raisable i s c) ∨ fetch s = .error c) := by
  obtain ⟨hs, ⟨i, -, hexec⟩ | ⟨c', hc', rfl⟩⟩ := step_cases h
  · have herr : handlerOf i s = .error c := handlerOf_eq_error_of_faulted hs hexec ht
    have hraise : exec i s = .next (raise c s) := raises_of_handlerOf_error herr
    exact ⟨Host.Outcome.next.inj (hexec.symm.trans hraise), .inl ⟨i, raisable_of_handlerOf herr⟩⟩
  · cases ht
    exact ⟨rfl, .inr hc'⟩

/-! ### The end of a faulted run -/

/-- From Faulted no step is defined (40_execution_cycle.md R80). -/
theorem step_of_faulted {s : State} {c : Condition} (hs : s.status = .faulted c) :
    step s = .fault (.conditionRaised c) := by
  rw [step, hs]

/-- A faulted machine shows its condition and no output, under any bound (70_reset_and_hazards.md R238). -/
theorem runFor_of_faulted (k : Nat) {s : State} {c : Condition} (hs : s.status = .faulted c) :
    runFor k s = .faulted c := by
  rw [runFor_of_not_running k (by simp [hs]), verdictOf, hs]

/-- Settles O13: the step is the raise of its condition, and Faulted stops every later step and the run. -/
theorem raiseIsPreciseAndEndsTheRun : Obligations.RaiseIsPreciseAndEndsTheRun := fun _ _ _ h ht =>
  ⟨(step_faulted_cases h ht).1, step_of_faulted ht, fun k => runFor_of_faulted k ht⟩

/-! ### Conditions that are never raised -/

section NeverRaised

variable {i : Instr} {s : State}

/-- No handler raises the loader's condition (60_exceptions.md R202). -/
theorem Raisable.ne_malformedProgram {c : Condition} (h : Raisable i s c) (e : LoadError) :
    c ≠ .malformedProgram e := by
  cases h <;> simp

/-- No fetch raises the loader's condition (60_exceptions.md R202). -/
theorem fetch_ne_malformedProgram (e : LoadError) : fetch s ≠ .error (.malformedProgram e) := by
  intro h
  obtain ⟨-, hc⟩ | ⟨-, -, hc⟩ | ⟨-, m, k, -, -, -, hc⟩ := fetch_error_cases h
  · cases hc
  · split at hc <;> cases hc
  · cases hc

/-- The return address of CALL is the one address a handler can have above 255: SP and the registers are bytes
(20_memory.md R42; 44_control_transfer.md R171). -/
theorem Raisable.eq_call_of_mem {x : Nat} (h : Raisable i s (.outOfBounds .mem x)) : ∃ a, i = .call a := by
  cases h with
  | returnAddress a hi hge => exact ⟨a, hi⟩

/-- The register condition comes from a register operand above 7 (30_encoding.md R64). -/
theorem Raisable.not_wellFormed_of_reg {x : Nat} (h : Raisable i s (.outOfBounds .reg x)) :
    ¬ i.wellFormed = true := by
  cases h with
  | register a ha hge =>
    intro hwf
    have hlt : a.toNat < 8 := of_decide_eq_true (List.all_eq_true.mp hwf a ha)
    omega

end NeverRaised

/-- Settles O14, by what a fetch and a handler can raise: CALL alone has an address of memory to check, and the
register check fails only on an operand above 7. -/
theorem conditionsNeverRaised : Obligations.ConditionsNeverRaised := by
  refine ⟨fun s t e h ht => ?_, fun s t i x hs hi h ht => ?_, fun s t i x hs hwf h ht => ?_⟩
  · obtain ⟨-, ⟨i, hr⟩ | hfetch⟩ := step_faulted_cases h ht
    · exact hr.ne_malformedProgram e rfl
    · exact fetch_ne_malformedProgram e hfetch
  · obtain ⟨a, rfl⟩ := (raisable_of_handlerOf (handlerOf_eq_error_of_faulted hs h ht)).eq_call_of_mem
    simp [Instr.mnemonic] at hi
  · exact (raisable_of_handlerOf (handlerOf_eq_error_of_faulted hs h ht)).not_wellFormed_of_reg hwf

/-! ### A failed load -/

/-- A failed load leaves the fresh machine with the loader's condition raised (70_reset_and_hazards.md R234). -/
theorem boot_of_parseProgram_error {config : Config} {rInit : Vector Byte 7} {text : List Char} {e : LoadError}
    (h : parseProgram text = .error e) :
    boot config rInit text = raise (.malformedProgram e) (State.initial config rInit) := by
  rw [boot, h]

/-- Settles O30: the machine a failed load leaves is faulted already, and its output buffer is the fresh one. -/
theorem failedLoadRunsNoStep : Obligations.FailedLoadRunsNoStep := by
  intro config rInit text e h
  have hboot := boot_of_parseProgram_error (config := config) (rInit := rInit) h
  have hstatus : (boot config rInit text).status = .faulted (.malformedProgram e) := by rw [hboot, raise_status]
  exact ⟨step_of_faulted hstatus, by rw [hboot]; rfl, fun k => runFor_of_faulted k hstatus⟩

end Sys2Proof.Machine
end

section
/-! SUPPORT AND PROOFS for the statements about reset, the loader and the run (70_reset_and_hazards.md): the fresh
machine, what the lines of a program text give, the machine a load leaves, and the verdict of a longer run. -/

namespace Sys2Proof.Machine

open Sys2Proof.Claims

/-! ### The verdict of a longer run -/

/-- A status that shows a verdict is not Running (70_reset_and_hazards.md R239). -/
theorem status_ne_running_of_verdictOf {s : State} (h : verdictOf s ≠ .noVerdict) : s.status ≠ .running :=
  fun hs => h (by rw [verdictOf, hs])

/-- Settles O25, by induction on the bound: a run that is over does not see its bound, and one step is common to both
runs otherwise. -/
theorem verdictIsStableUnderMoreFuel : Obligations.VerdictIsStableUnderMoreFuel := by
  intro k j s h
  induction k generalizing s with
  | zero =>
    have hs : s.status ≠ .running := status_ne_running_of_verdictOf h
    rw [runFor_of_not_running _ hs, runFor_of_not_running _ hs]
  | succ k ih =>
    by_cases hs : s.status = .running
    · obtain ⟨t, ht⟩ := step_is_next hs
      rw [runFor_succ_of_step ht] at h
      rw [Nat.add_right_comm, runFor_succ_of_step ht, runFor_succ_of_step ht, ih t h]
    · rw [runFor_of_not_running _ hs, runFor_of_not_running _ hs]

/-! ### The fresh machine -/

section Fresh

variable (config : Config) (rInit : Vector Byte 7)

/-- SP after reset (10_state.md R24). -/
theorem initial_sp : (State.initial config rInit).regs[7] = 0xF4#8 := Vector.getElem_push_eq

/-- R0 to R6 after reset (10_state.md R24, D9). -/
theorem initial_regs (r : Fin 7) : (State.initial config rInit).regs[r.val] = rInit[r] := Vector.getElem_push_lt r.isLt

theorem initial_inv : (State.initial config rInit).Inv where
  mem_wf := rfl
  pc_range := Nat.zero_le 258
  flags_legal := .inl rfl
  status_legal := trivial

end Fresh

/-- Settles O28: SP and R0 to R6 are the two parts of the register file, every other value is reset's own. -/
theorem resetLeaves : Obligations.ResetLeaves :=
  ⟨fun config rInit =>
    ⟨initial_sp config rInit, initial_regs config rInit, rfl, rfl, rfl, rfl, rfl, rfl, fun _ => rfl⟩, rfl⟩

/-! ### The machine a load leaves -/

theorem boot_of_parseProgram_ok {config : Config} {rInit : Vector Byte 7} {text : List Char} {image : List Byte}
    (h : parseProgram text = .ok image) : boot config rInit text = loadImage image (State.initial config rInit) := by
  rw [boot, h]

theorem State.Inv.loadImage {s : State} (hs : s.Inv) (image : List Byte) : (loadImage image s).Inv :=
  { hs with mem_wf := Memory.wf_storeBytes Config.loadBase image hs.mem_wf }

/-- Settles O18: the fresh machine meets the invariant, and the loader's stores and its condition keep it. -/
theorem invariantHoldsAtStart : Obligations.InvariantHoldsAtStart := by
  refine ⟨initial_inv _ _, fun config rInit text => ?_⟩
  have hfresh : (State.initial config rInit).Inv := initial_inv config rInit
  cases hparse : parseProgram text with
  | ok image => exact boot_of_parseProgram_ok hparse ▸ hfresh.loadImage image
  | error e => exact boot_of_parseProgram_error hparse ▸ hfresh.raise trivial

/-- The memory of a loaded fresh machine: the image from address 0 up, and zeros (70_reset_and_hazards.md R231). -/
theorem readCell_loadImage_initial {image : List Byte} (hlen : image.length ≤ 256) (config : Config)
    (rInit : Vector Byte 7) (a : Nat) :
    readCell (loadImage image (State.initial config rInit)).mem a = image.getD a 0x00#8 := by
  have hend : Config.loadBase + image.length ≤ 256 := by simpa [Config.loadBase] using hlen
  rw [loadImage_mem, readCell_storeBytes image _ a _ hend]
  simp only [Config.loadBase, Nat.zero_le, true_and, Nat.zero_add, Nat.sub_zero]
  split
  · rfl
  · next ha => exact (List.getD_eq_default image 0x00#8 (Nat.le_of_not_lt ha)).symm

/-! ### The lines of a program text -/

section Lines

variable {number count : Nat} {line : List Char} {rest : List (List Char)} {image : List Byte} {b : Byte}

theorem parseLines_cons_of_skip (h : readLine line = .skip) :
    parseLines number count (line :: rest) = parseLines (number + 1) count rest := by
  rw [parseLines, h]

theorem parseLines_cons_of_bad (h : readLine line = .bad) :
    parseLines number count (line :: rest) = .error (.badLine number line) := by
  rw [parseLines, h]

theorem parseLines_cons_of_byte (h : readLine line = .byte b) (hcount : count < 256) :
    parseLines number count (line :: rest) = (parseLines (number + 1) (count + 1) rest).map (b :: ·) := by
  simp only [parseLines, h, if_neg (Nat.not_le_of_lt hcount)]
  cases parseLines (number + 1) (count + 1) rest <;> rfl

theorem parseLines_cons_of_byte_full (h : readLine line = .byte b) (hcount : 256 ≤ count) :
    parseLines number count (line :: rest) = .error (.tooLong (count + 1)) := by
  simp only [parseLines, h, if_pos hcount]

/-- An image of lines after `count` bytes fits with them into memory (70_reset_and_hazards.md R234). -/
theorem length_of_parseLines_ok {lines : List (List Char)} (h : parseLines number count lines = .ok image)
    (hcount : count ≤ 256) : count + image.length ≤ 256 := by
  induction lines generalizing number count image with
  | nil =>
    cases h
    exact hcount
  | cons line rest ih =>
    cases hline : readLine line with
    | skip => exact ih (parseLines_cons_of_skip hline ▸ h) hcount
    | bad => simp [parseLines_cons_of_bad hline] at h
    | byte b =>
      obtain hfree | hfull := Nat.lt_or_ge count 256
      · rw [parseLines_cons_of_byte hline hfree] at h
        cases hrest : parseLines (number + 1) (count + 1) rest with
        | error e => simp [hrest, Except.map] at h
        | ok tail =>
          obtain rfl : b :: tail = image := by simpa [hrest, Except.map] using h
          have htail : count + 1 + tail.length ≤ 256 := ih hrest hfree
          rw [List.length_cons]
          omega
      · simp [parseLines_cons_of_byte_full hline hfull] at h

end Lines

/-- Settles O29: the parse bounds the image, and the loader stores it into the fresh machine and nothing else. -/
theorem loadedMachine : Obligations.LoadedMachine := by
  intro config rInit text image h
  have hlen : image.length ≤ 256 := by simpa using length_of_parseLines_ok h (Nat.zero_le 256)
  rw [boot_of_parseProgram_ok h]
  exact ⟨hlen, readCell_loadImage_initial hlen config rInit, rfl⟩

/-- The byte a line's reading gives, if it gives one. -/
def LineResult.byte? : LineResult → Option Byte
  | .byte b => some b
  | .skip => none
  | .bad => none

/-- The bytes a list of lines gives, in order. -/
def lineBytes (lines : List (List Char)) : List Byte := lines.filterMap fun line => (readLine line).byte?

theorem length_lineBytes (lines : List (List Char)) : (lineBytes lines).length = byteCount lines := by
  rw [lineBytes, List.length_filterMap_eq_countP, byteCount]
  congr 1
  funext line
  cases readLine line <;> rfl

/-- Lines without a bad one, of no more bytes than memory has room for, put their bytes before the image of the lines
after them (70_reset_and_hazards.md R231, R234). -/
theorem parseLines_append {before : List (List Char)} (hbad : ∀ line ∈ before, readLine line ≠ .bad) {count : Nat}
    (hcount : count + (lineBytes before).length ≤ 256) (number : Nat) (rest : List (List Char)) :
    parseLines number count (before ++ rest) =
      (parseLines (number + before.length) (count + (lineBytes before).length) rest).map (lineBytes before ++ ·) := by
  induction before generalizing number count with
  | nil => cases h : parseLines number count rest <;> simp [lineBytes, h, Except.map]
  | cons line before ih =>
    have hbad' : ∀ line ∈ before, readLine line ≠ .bad := fun l hl => hbad l (List.mem_cons_of_mem line hl)
    have hnumber : number + (line :: before).length = number + 1 + before.length := by
      rw [List.length_cons]; omega
    rw [hnumber, List.cons_append]
    cases hline : readLine line with
    | bad => exact absurd hline (hbad line List.mem_cons_self)
    | skip =>
      have hbytes : lineBytes (line :: before) = lineBytes before := by simp [lineBytes, hline, LineResult.byte?]
      rw [hbytes] at hcount ⊢
      rw [parseLines_cons_of_skip hline, ih hbad' hcount]
    | byte b =>
      have hbytes : lineBytes (line :: before) = b :: lineBytes before := by simp [lineBytes, hline, LineResult.byte?]
      rw [hbytes, List.length_cons] at hcount ⊢
      rw [parseLines_cons_of_byte hline (by omega), ih hbad' (by omega), Nat.add_right_comm count 1, ← Nat.add_assoc]
      cases parseLines (number + 1 + before.length) (count + (lineBytes before).length + 1) rest <;> rfl

/-- Settles O32: the lines before the bad one only advance the line number and the count. -/
theorem loaderReportsFirstBadLine : Obligations.LoaderReportsFirstBadLine := by
  intro before after line hbefore hcount hline
  have hroom : 0 + (lineBytes before).length ≤ 256 := by rwa [length_lineBytes, Nat.zero_add]
  rw [parseLines_append hbefore hroom, parseLines_cons_of_bad hline, Nat.add_comm 1]
  rfl

/-! ### The text of one byte a line -/

section ByteLine

variable (v : Byte)

theorem bitText_eq_zero_or_one (k : Nat) : bitText v k = '0' ∨ bitText v k = '1' := by
  rw [bitText]
  split
  · exact .inr rfl
  · exact .inl rfl

theorem digitValue_bitText (k : Nat) : (if bitText v k = '1' then 1 else 0) = v.toNat / 2 ^ k % 2 := by
  have hbit : v.getLsbD k = decide (v.toNat / 2 ^ k % 2 = 1) := Nat.testBit_eq_decide_div_mod_eq
  rw [bitText, hbit]
  obtain h | h := Nat.mod_two_eq_zero_or_one (v.toNat / 2 ^ k) <;> simp [h]

/-- The value of a byte's eight digits is the byte (70_reset_and_hazards.md R233). -/
theorem binaryValue_byteLine : binaryValue (byteLine v) = v.toNat := by
  have hlt : v.toNat < 256 := v.isLt
  simp only [binaryValue, byteLine, List.foldl_cons, List.foldl_nil, digitValue_bitText]
  omega

theorem mem_byteLine {c : Char} (hc : c ∈ byteLine v) : c = '0' ∨ c = '1' := by
  simp only [byteLine, List.mem_cons, List.not_mem_nil, or_false] at hc
  obtain rfl | rfl | rfl | rfl | rfl | rfl | rfl | rfl := hc <;> exact bitText_eq_zero_or_one v _

theorem parseLiteral_byteLine : parseLiteral (byteLine v) = some v := by
  have hdigits : (byteLine v).all (fun c => c = '0' || c = '1') = true :=
    List.all_eq_true.mpr fun c hc => by simpa using mem_byteLine v hc
  have hvalue : binaryValue (byteLine v) ≤ 255 := by
    rw [binaryValue_byteLine]
    exact Nat.le_of_lt_succ v.isLt
  rw [parseLiteral, if_pos ⟨List.cons_ne_nil _ _, hdigits, hvalue⟩, binaryValue_byteLine, BitVec.ofNat_toNat,
    BitVec.setWidth_eq]

end ByteLine

/-- A line without `#` has no comment to strip (70_reset_and_hazards.md R232). -/
theorem stripComment_of_not_mem {line : List Char} (h : '#' ∉ line) : stripComment line = line :=
  List.takeWhile_eq_self_iff.mpr fun _ hc => decide_eq_true fun heq => h (heq ▸ hc)

theorem dropWhile_isWhitespace_of_forall {line : List Char} (h : ∀ c ∈ line, isWhitespace c = false) :
    line.dropWhile isWhitespace = line :=
  List.dropWhile_eq_self_iff.mpr fun hpos => by simp [h _ (List.getElem_mem hpos)]

/-- A line without whitespace has no margins to trim (70_reset_and_hazards.md R232). -/
theorem trim_of_forall {line : List Char} (h : ∀ c ∈ line, isWhitespace c = false) : trim line = line := by
  have hrev : ∀ c ∈ line.reverse, isWhitespace c = false := fun c hc => h c (List.mem_reverse.mp hc)
  rw [trim, dropWhile_isWhitespace_of_forall h, dropWhile_isWhitespace_of_forall hrev, List.reverse_reverse]

/-- A byte's line reads as the byte (70_reset_and_hazards.md R232). -/
theorem readLine_byteLine (v : Byte) : readLine (byteLine v) = .byte v := by
  have hcomment : '#' ∉ byteLine v := fun hc => by simpa using mem_byteLine v hc
  have hmargin : ∀ c ∈ byteLine v, isWhitespace c = false := fun c hc => by
    obtain rfl | rfl := mem_byteLine v hc <;> rfl
  have hliteral := parseLiteral_byteLine v
  rw [readLine, stripComment_of_not_mem hcomment, trim_of_forall hmargin]
  simp only [byteLine] at hliteral ⊢
  rw [hliteral]

/-- The line before the first line feed (70_reset_and_hazards.md R232). -/
theorem splitLines_append_newline {line : List Char} (h : '\n' ∉ line) (rest : List Char) :
    splitLines (line ++ '\n' :: rest) = line :: splitLines rest := by
  induction line with
  | nil => rfl
  | cons c line ih =>
    obtain ⟨hc, hline⟩ : '\n' ≠ c ∧ '\n' ∉ line := by simpa using h
    rw [List.cons_append, splitLines, if_neg hc.symm, ih hline]

/-- The lines of a program text: a line for each byte, and the empty line after the last line feed. -/
theorem splitLines_programText (image : List Byte) : splitLines (programText image) = image.map byteLine ++ [[]] := by
  induction image with
  | nil => rfl
  | cons v image ih =>
    have hline : '\n' ∉ byteLine v := fun hc => by simpa using mem_byteLine v hc
    rw [programText, splitLines_append_newline hline, ih, List.map_cons, List.cons_append]

theorem lineBytes_map_byteLine (image : List Byte) : lineBytes (image.map byteLine) = image := by
  simp [lineBytes, List.filterMap_map, readLine_byteLine, LineResult.byte?]

theorem parseLines_map_byteLine_append {image : List Byte} (hlen : image.length ≤ 256) (rest : List (List Char)) :
    parseLines 1 0 (image.map byteLine ++ rest) =
      (parseLines (1 + image.length) image.length rest).map (image ++ ·) := by
  have hbad : ∀ line ∈ image.map byteLine, readLine line ≠ .bad := fun line hline => by
    obtain ⟨v, -, rfl⟩ := List.mem_map.mp hline
    simp [readLine_byteLine]
  have hroom : 0 + (lineBytes (image.map byteLine)).length ≤ 256 := by simpa [lineBytes_map_byteLine] using hlen
  simpa [lineBytes_map_byteLine] using parseLines_append hbad hroom 1 rest

/-- Settles O31: the lines of up to 256 bytes give those bytes, and the line after 256 of them is one too many. -/
theorem loaderReadsProgramText : Obligations.LoaderReadsProgramText := by
  refine ⟨fun image hlen => ?_, fun image hlen => ?_⟩
  · rw [parseProgram, splitLines_programText, parseLines_map_byteLine_append hlen, parseLines_cons_of_skip rfl]
    simp [parseLines, Except.map]
  · have htake : (image.take 256).length = 256 := List.length_take_of_le (Nat.le_of_lt hlen)
    have hsplit : image = image.take 256 ++ image[256] :: image.drop 257 := by
      rw [List.getElem_cons_drop, List.take_append_drop]
    rw [parseProgram, splitLines_programText, hsplit, List.map_append, List.append_assoc,
      parseLines_map_byteLine_append (Nat.le_of_eq htake), htake, List.map_cons, List.cons_append,
      parseLines_cons_of_byte_full (readLine_byteLine _) (Nat.le_refl 256)]
    rfl

end Sys2Proof.Machine
end

section
/-! SUPPORT AND PROOFS for the statements about what one line of a program text gives (70_reset_and_hazards.md), the
split of the opcode space and the words of the spec (30_encoding.md), and the step as the decoder's reading of memory
(40_execution_cycle.md). -/

namespace Sys2Proof.Machine

open Sys2Proof.Claims

/-! ### Literals -/

/-- Every literal a parse accepts, with its byte (70_reset_and_hazards.md R233). -/
theorem parseLiteral_eq_some {text : List Char} {b : Byte} : parseLiteral text = some b ↔
    text ≠ [] ∧ (∀ c ∈ text, c = '0' ∨ c = '1') ∧ binaryValue text = b.toNat := by
  have hdigits : text.all (fun c => c = '0' || c = '1') = true ↔ ∀ c ∈ text, c = '0' ∨ c = '1' := by simp
  have hvalue : binaryValue text ≤ 255 ∧ BitVec.ofNat 8 (binaryValue text) = b ↔ binaryValue text = b.toNat := by
    bv_omega
  rw [parseLiteral, Option.ite_none_right_eq_some, Option.some.injEq, hdigits, and_assoc, and_assoc, hvalue]

/-- A leading zero adds nothing to the value of the digits after it. -/
theorem binaryValue_zero_cons (text : List Char) : binaryValue ('0' :: text) = binaryValue text := rfl

theorem parseLiteral_zero_cons {text : List Char} (h : text ≠ []) : parseLiteral ('0' :: text) = parseLiteral text :=
  Option.ext fun b => by simp [parseLiteral_eq_some, binaryValue_zero_cons, h]

/-- Settles O33, by the texts a parse accepts and the value that a leading zero leaves alone. -/
theorem literalValidity : Obligations.LiteralValidity :=
  ⟨fun _ _ => parseLiteral_eq_some, fun _ h => parseLiteral_zero_cons h⟩

/-! ### Comments and margins -/

/-- What stands before the first `#` is what the comment leaves (70_reset_and_hazards.md R232). -/
theorem stripComment_append_hash {line : List Char} (h : '#' ∉ line) (comment : List Char) :
    stripComment (line ++ '#' :: comment) = line := by
  have hline : ∀ c ∈ line, decide (c ≠ '#') = true := fun c hc => decide_eq_true fun heq => h (heq ▸ hc)
  rw [stripComment, List.takeWhile_append_of_pos hline, List.takeWhile_cons_of_neg (by simp), List.append_nil]

theorem hash_not_mem_of_all_isWhitespace {margin : List Char} (h : margin.all isWhitespace = true) : '#' ∉ margin :=
  fun hmem => by simpa [isWhitespace] using List.all_eq_true.mp h _ hmem

theorem trim_append_left {left : List Char} (h : left.all isWhitespace = true) (line : List Char) :
    trim (left ++ line) = trim line := by
  rw [trim, List.dropWhile_append_of_pos (List.all_eq_true.mp h), trim]

/-- Whitespace after a text is trimmed; if the text is itself whitespace, nothing is left of either. -/
theorem trim_append_right {right : List Char} (h : right.all isWhitespace = true) (line : List Char) :
    trim (line ++ right) = trim line := by
  have hright : ∀ c ∈ right, isWhitespace c = true := List.all_eq_true.mp h
  rw [trim, List.dropWhile_append, trim]
  split
  · next hempty =>
    rw [List.isEmpty_iff.mp hempty, List.dropWhile_eq_nil_iff.mpr hright]
  · have hrev : ∀ c ∈ right.reverse, isWhitespace c = true := fun c hc => hright c (List.mem_reverse.mp hc)
    rw [List.reverse_append, List.dropWhile_append_of_pos hrev]

/-- What a line gives depends only on what is left of it without its comment and margins. -/
theorem readLine_congr {line line' : List Char} (h : trim (stripComment line) = trim (stripComment line')) :
    readLine line = readLine line' := by
  rw [readLine, h, readLine]

/-- Settles O34: the comment goes first, then each margin, and neither margin holds a `#` that would begin one. -/
theorem loaderIgnoresCommentsAndMargins : Obligations.LoaderIgnoresCommentsAndMargins := by
  intro left line right comment hline hleft hright
  have hhash : '#' ∉ left ++ line ++ right := by
    simp [hline, hash_not_mem_of_all_isWhitespace hleft, hash_not_mem_of_all_isWhitespace hright]
  have htrim : trim (left ++ line ++ right) = trim (stripComment line) := by
    rw [trim_append_right hright, trim_append_left hleft, stripComment_of_not_mem hline]
  exact ⟨readLine_congr (by rw [stripComment_append_hash hhash, htrim]),
    readLine_congr (by rw [stripComment_of_not_mem hhash, htrim])⟩

/-! ### The opcode space -/

theorem nodup_allBytes : allBytes.Nodup :=
  List.nodup_range.map_on fun m hm n hn h => by
    rw [List.mem_range] at hm hn
    bv_omega

theorem mem_allBytes (op : Byte) : op ∈ allBytes :=
  List.mem_map.mpr ⟨op.toNat, List.mem_range.mpr op.isLt, by rw [BitVec.ofNat_toNat, BitVec.setWidth_eq]⟩

theorem any_mnemonicOf {op : Byte} {p : Mnemonic → Bool} :
    (mnemonicOf op).any p = true ↔ ∃ m, p m = true ∧ opcodeByte m = op := by
  rw [Option.any_eq_true]
  constructor
  · rintro ⟨m, hm, hp⟩
    exact ⟨m, hp, opcodeByte_of_mnemonicOf hm⟩
  · rintro ⟨m, hp, rfl⟩
    exact ⟨m, mnemonicOf_opcodeByte m, hp⟩

/-- The bytes that name a mnemonic with a property are as many as these mnemonics, for each mnemonic has one byte
(30_encoding.md R66, R67). -/
theorem countP_any_mnemonicOf (p : Mnemonic → Bool) :
    (allBytes.countP fun op => (mnemonicOf op).any p) = Mnemonic.all.countP p := by
  have hall : Mnemonic.all.Nodup := by decide
  have hnodup : ((Mnemonic.all.filter p).map opcodeByte).Nodup := (hall.filter p).map opcodeByte_injective
  have hperm : (allBytes.filter fun op => (mnemonicOf op).any p).Perm ((Mnemonic.all.filter p).map opcodeByte) :=
    (List.perm_ext_iff_of_nodup (nodup_allBytes.filter _) hnodup).mpr fun op => by
      simp [any_mnemonicOf, mem_allBytes, Mnemonic.mem_all]
  rw [List.countP_eq_length_filter, hperm.length_eq, List.length_map, ← List.countP_eq_length_filter]

/-- Half of the bytes have the ALU flag, and half have not (30_encoding.md R61). -/
theorem countP_isAlu_allBytes (alu : Bool) : (allBytes.countP fun op => (decodeFields op).isAlu == alu) = 128 := by
  cases alu <;> decide +kernel

/-- A byte is rejected by the error of its ALU flag exactly when it names no mnemonic (30_encoding.md R68, R69). -/
theorem decide_classify_eq_error (alu : Bool) (op : Byte) :
    decide (classify op = .error (if alu then .unsupportedOperation op else .invalidOpcode op)) =
      ((decodeFields op).isAlu == alu && (mnemonicOf op).isNone) := by
  rw [Bool.eq_iff_iff]
  cases alu <;> cases halu : (decodeFields op).isAlu <;> simp [classify_eq_error, halu]

/-- Among the bytes of one ALU flag, those that name a mnemonic are as many as the mnemonics of that flag, and
classification rejects the others (30_encoding.md R68, R69). -/
theorem countP_defined_add_rejected (alu : Bool) :
    (Mnemonic.all.countP fun m => (fieldsOf m).isAlu == alu) +
      (allBytes.countP fun op =>
        decide (classify op = .error (if alu then .unsupportedOperation op else .invalidOpcode op))) = 128 := by
  have hdefined (op : Byte) : (mnemonicOf op).any (fun m => (fieldsOf m).isAlu == alu) =
      ((decodeFields op).isAlu == alu && (mnemonicOf op).isSome) := by
    cases hm : mnemonicOf op with
    | none => simp
    | some m => simp [← opcodeByte_of_mnemonicOf hm, fieldsOf]
  have hsplit := List.countP_eq_countP_filter_add allBytes (fun op => (decodeFields op).isAlu == alu)
    fun op => (mnemonicOf op).isSome
  simp only [countP_isAlu_allBytes, List.countP_filter, Option.not_isSome] at hsplit
  simp only [← countP_any_mnemonicOf, hdefined, decide_classify_eq_error, ← hsplit]

/-- Settles O5: 21 mnemonics have a byte each, 8 of them in the half with the ALU flag and 13 in the other. -/
theorem opcodeSpaceSplits : Obligations.OpcodeSpaceSplits := by
  have hdefined : (allBytes.countP fun op => (mnemonicOf op).isSome) = 21 := by
    have hall : Mnemonic.all.length = 21 := rfl
    simpa [hall] using countP_any_mnemonicOf fun _ => true
  have halu : (Mnemonic.all.countP fun m => (fieldsOf m).isAlu == true) = 8 := by decide
  have hother : (Mnemonic.all.countP fun m => (fieldsOf m).isAlu == false) = 13 := by decide
  have hunsupported := countP_defined_add_rejected true
  have hinvalid := countP_defined_add_rejected false
  simp only [halu, if_true] at hunsupported
  simp only [hother, Bool.false_eq_true, if_false] at hinvalid
  exact ⟨hdefined, by omega, by omega⟩

/-! ### The words of the spec -/

/-- A byte that classification rejects begins no instruction, whatever follows (40_execution_cycle.md R83, R84). -/
theorem decode_cons_of_classify_error {op : Byte} {e : DecodeError} (h : classify op = .error e) (rest : List Byte) :
    decode (op :: rest) = .error e := by
  simp [decode, h]

/-- Settles O6: the first six words are encodings, and the last two begin with an undefined opcode byte. -/
theorem specWordsDecode : Obligations.SpecWordsDecode :=
  ⟨decodeEncodeRoundTrip (.ldi 0 0x41) [], decodeEncodeRoundTrip (.pra 0) [], decodeEncodeRoundTrip .hlt [],
    decodeEncodeRoundTrip (.mul 0 1) [], decodeEncodeRoundTrip (.pop 1) [], decodeEncodeRoundTrip .ret [],
    decode_cons_of_classify_error (classify_eq_error.mpr ⟨rfl, rfl⟩) _,
    decode_cons_of_classify_error (classify_eq_error.mpr ⟨rfl, rfl⟩) _⟩

/-! ### The step and the decoder -/

/-- The bytes from pc up to 255 are those that a memory access at pc + k can read (20_memory.md R41). -/
theorem getElem?_bytesAtPc {s : State} {k : Nat} {b : Byte} :
    (bytesAtPc s)[k]? = some b ↔ s.pc + k < 256 ∧ b = readCell s.mem (s.pc + k) := by
  have hlen : k < 256 - s.pc ↔ s.pc + k < 256 := by omega
  rw [bytesAtPc, List.getElem?_eq_some_iff]
  simp [hlen, eq_comm (a := b)]

/-- The operand fetch reads the operand bytes that stand in memory after the opcode (40_execution_cycle.md R85). -/
theorem fetchOperand_of_bytesAtPc {s : State} {op : Byte} {ops rest : List Byte}
    (h : bytesAtPc s = op :: (ops ++ rest)) (k : Nat) :
    fetchOperand ops.length (k + 1) s = .ok (ops.getD k 0) := by
  rw [fetchOperand_eq_ok]
  obtain hlt | hge := Nat.lt_or_ge k ops.length
  · have hbyte : (bytesAtPc s)[k + 1]? = some (ops.getD k 0) := by
      rw [h, List.getElem?_cons_succ, List.getElem?_append_left hlt, List.getD_eq_getElem ops 0 hlt,
        List.getElem?_eq_getElem hlt]
    exact .inl ⟨hlt, getElem?_bytesAtPc.mp hbyte⟩
  · exact .inr ⟨Nat.lt_succ_of_le hge, List.getD_eq_default ops 0 hge⟩

/-- Where the decoder reads an instruction from memory at pc, the fetch gives it (40_execution_cycle.md R81 to R85). -/
theorem fetch_of_decode_bytesAtPc {s : State} {i : Instr} {rest : List Byte}
    (h : decode (bytesAtPc s) = .ok (i, rest)) : fetch s = .ok i := by
  obtain ⟨m, ops, hlen, hbytes, rfl⟩ := decode_eq_ok.mp h
  have hopcode : (bytesAtPc s)[0]? = some (opcodeByte m) := by rw [hbytes]; rfl
  obtain ⟨hpc, hop⟩ := getElem?_bytesAtPc.mp hopcode
  exact fetch_eq_ok.mpr ⟨hpc, m, _, _, hop.symm, hlen ▸ fetchOperand_of_bytesAtPc hbytes 0,
    hlen ▸ fetchOperand_of_bytesAtPc hbytes 1, rfl⟩

/-- Settles O7: what the decoder reads at pc is what the step fetches. -/
theorem stepRunsDecodedInstruction : Obligations.StepRunsDecodedInstruction :=
  fun _ _ _ hs hdecode => step_of_fetch_ok hs (fetch_of_decode_bytesAtPc hdecode)

end Sys2Proof.Machine
end
